-- ==== Sys2Proof/Word.lean ====
section
/-! DEFINITION. The value types of `00_scope.md` rule R14 and the names of the external registers.
Bit numbering is that of rule R12: bit 0 is the least significant bit of a word. -/

namespace Sys2Proof

/-- `u32` of rule R14: a register word, a command word, an info word, a divider. -/
abbrev Word := BitVec 32

/-- `u15` of rule R14: a chip register address (rule R63). -/
abbrev ChipAddr := BitVec 15

/-- `u16` of rule R14: a chip register datum (rule R63). -/
abbrev Half := BitVec 16

/-- `u2` of rule R14: a clock-select code (rule R93). -/
abbrev ClkCode := BitVec 2

/-- A client id, `0 .. P_NUM_CLIENTS-1` (rule R220). -/
abbrev ClientId := Nat

/-- `RegId` of rules R14 and R21: the five registers of the register I/O provider. -/
inductive RegId where
  | spiMosi
  | spiControl
  | spiStatus
  | spiMiso
  | ctrlScratch
deriving DecidableEq, Repr, Inhabited

end Sys2Proof
end

