-- ==== Sys2Proof/Config.lean ====
section
/-! DEFINITION. What the build of the block fixes (`00_scope.md` rule R10, with its OPEN type `Freq`) and the values the
spec leaves free at power-up (`10_state.md` rules R28 and R29). -/

namespace Sys2Proof

/-- The attempt budget `P_MAX_ATTEMPTS` of rule R10: 40, fixed by the source. -/
def Config.maxAttempts : Nat := 40

/-- `P_REG_ADDR` (rules R10, R21): the bus address of each external register. -/
structure Config.RegAddrs where
  mosi : Word
  control : Word
  status : Word
  miso : Word
  scratch : Word
deriving DecidableEq, Repr, Inhabited

/-- `P_REG_ADDR(r)`: the bus address by which rule R13 names an access to the register `r`. -/
def Config.RegAddrs.addr (a : Config.RegAddrs) : RegId → Word
  | .spiMosi => a.mosi
  | .spiControl => a.control
  | .spiStatus => a.status
  | .spiMiso => a.miso
  | .ctrlScratch => a.scratch

/-- The five addresses as a list, for the two constraints of rule R21. -/
def Config.RegAddrs.list (a : Config.RegAddrs) : List Word :=
  [a.mosi, a.control, a.status, a.miso, a.scratch]

/-- The parameters of rule R10, with the constraints that rule puts on each as proof fields, so that only a lawful
build can be written down. The field defaults show that a lawful build exists and are never used by a rule: they are
not the suggested defaults of `93_implementation_defined.md` G1 and G2. -/
structure Config.Build where
  /-- `P_POLL_LIMIT`: `none` is UNBOUNDED, `some n` the most STATUS reads in one transaction. -/
  pollLimit : Option Nat := none
  /-- `P_CTRL_START_WORD` (rule R91). -/
  ctrlStartWord : Word := 0x5A5A5A5A
  /-- `P_STATUS_DONE_MASK` (rule R92). -/
  statusDoneMask : Word := 0x00100000
  /-- `P_REG_ADDR` (rule R21). -/
  regAddrs : Config.RegAddrs := ⟨64#32, 32#32, 16#32, 8#32, 4#32⟩
  /-- `P_NUM_CLIENTS` is this number and two more, since it is at least 2. -/
  extraClients : Nat := 0
  /-- `P_RFLIB_CLIENT`. -/
  rflibClient : ClientId := 0
  /-- `P_BATCH_MAX`. -/
  batchMax : Nat := 1
  /-- `P_CAND_MAX`. -/
  candMax : Nat := 40
  pollLimit_pos : pollLimit ≠ some 0 := by decide
  statusDoneMask_ne : statusDoneMask ≠ 0 := by decide
  regAddrs_injective : regAddrs.list.Nodup := by decide
  regAddrs_aligned : regAddrs.list.all (fun a => a.toNat % 4 == 0) = true := by decide
  rflibClient_lt : rflibClient < extraClients + 2 := by decide
  batchMax_pos : 1 ≤ batchMax := by decide
  candMax_ge : Config.maxAttempts ≤ candMax := by decide
deriving DecidableEq, Repr, Inhabited

/-- `P_NUM_CLIENTS` (rule R10), at least 2. -/
def Config.Build.numClients (b : Config.Build) : Nat := b.extraClients + 2

/-- The one build the machine of `State.reset` is made with: OPEN (rule R10), so a constant with no body. -/
opaque Config.built : Config.Build

/-- A target frequency as the state holds it: a name for a value of the OPEN type `Config.freqType`, plain data with the
value's `positive`. It is no number of hertz: the token is never computed with (rule R172). -/
structure Freq where
  positive : Bool
  token : Nat
deriving DecidableEq, Repr, Inhabited

/-- What rule R10 says of its parameter `Freq`: a type with a predicate `positive`, which rule R172 takes to hold of some
values and not of others; and which of its values each name stands for, whose `positive` the name carries. The field
defaults show that such a type exists and are never used by a rule. -/
structure Config.FreqType where
  carrier : Type := Freq
  positive : carrier → Bool := by exact Freq.positive
  value : Freq → carrier := by exact id
  value_positive : ∀ f : Freq, positive (value f) = f.positive := by exact fun _ => rfl
deriving Inhabited

/-- The type `Freq` the block is built with: OPEN (rule R10), so a constant with no body. -/
opaque Config.freqType : Config.FreqType

/-- `bridge.slot` of rule R29: whether a transfer is in flight in the bridge's single slot. -/
inductive BridgeSlot where
  | idle
  | busy
deriving DecidableEq, Repr, Inhabited

/-- The slot's state at power-up: a draw (rules R29 and R235). -/
opaque Config.slotAtReset : BridgeSlot

/-- What the external registers hold at power-up: not in the source (rule R28), so free. -/
opaque Config.externalAtReset : RegId → Word

end Sys2Proof
end

