-- ==== Sys2Proof/Syntax.lean ====
section
/-! DEFINITION. The commands and requests of the block: one constructor of `Instr` per row of
`spec/opcode_table.json`. -/

namespace Sys2Proof

/-- `Command` of rule R14: `Write{addr, value} | Read{addr}`. -/
inductive Command where
  | write (addr : ChipAddr) (value : Half)
  | read (addr : ChipAddr)
deriving DecidableEq, Repr, Inhabited

/-- `Response` of rule R14: `Value(u16) | NoPayload`. -/
inductive Response where
  | value (v : Half)
  | noPayload
deriving DecidableEq, Repr, Inhabited

/-- The two commands of format CMD32 (rule R81), which the sequencer runs, and the eight requests of format REQ with
the reserved op codes (rules R95 to R97), which clients present. -/
inductive Instr where
  /-- SPI_WRITE (rule R114). -/
  | spiWrite (addr : ChipAddr) (value : Half)
  /-- SPI_READ (rule R115); the word's low 16 bits are ignored and are no operand. -/
  | spiRead (addr : ChipAddr)
  /-- ENCODE_WRITE, op 0x0 (rule R111). -/
  | encodeWrite (addr value : Word)
  /-- ENCODE_READ, op 0x1 (rule R112). -/
  | encodeRead (addr : Word)
  /-- DECODE, op 0x2 (rule R113). -/
  | decode (word : Word)
  /-- TRANSACT, op 0x3 (rule R140). -/
  | transact (word : Word)
  /-- TRANSACT_MANY, op 0x4 (rule R141). -/
  | transactMany (words : List Word)
  /-- TUNE_CGEN, op 0x5 (rule R162). -/
  | tuneCgen (freq : Freq) (cands : List Word)
  /-- REG_READ32, op 0x6 (rule R186). -/
  | regRead32 (reg : BitVec 3)
  /-- CLKSEL, op 0x7 (rule R161). -/
  | clksel (div : Word)
  /-- The reserved op codes 0x8 to 0xF (rule R96). -/
  | reserved (op : BitVec 4)
deriving DecidableEq, Repr, Inhabited

/-- The SPI command a transaction of `c` carries, as an instruction (rule R82). -/
def Instr.ofCommand : Command → Instr
  | .write a v => .spiWrite a v
  | .read a => .spiRead a

end Sys2Proof
end

