-- ==== Sys2Proof/WellFormed.lean ====
section
/-! DEFINITION. Which instructions can be presented to a block of a given build: the list bounds of
`30_encoding.md` rule R97, the positive frequency of `42_tuning_retry.md` rule R172 and the reserved op codes of rule
R96. Every other operand is bounded by its type. -/

namespace Sys2Proof

/-- Rule R97: `len(l) <= bound`, by recursion on the list, so that the empty list fits under any bound, known or
not. -/
def fits {α : Type} : List α → Nat → Bool
  | [], _ => true
  | _ :: _, 0 => false
  | _ :: t, n + 1 => fits t n

/-- Rule R96: the reserved op codes are those with bit 3 set. -/
def opReserved (op : BitVec 4) : Bool := op.getLsbD 3

/-- The instructions a client of a block built as `b` can present, or its sequencer run. -/
def Instr.wellFormed (b : Config.Build) : Instr → Bool
  | .spiWrite _ _ => true
  | .spiRead _ => true
  | .encodeWrite _ _ => true
  | .encodeRead _ => true
  | .decode _ => true
  | .transact _ => true
  | .transactMany words => fits words b.batchMax
  | .tuneCgen freq cands => freq.positive && fits cands b.candMax
  | .regRead32 _ => true
  | .clksel _ => true
  | .reserved op => opReserved op

end Sys2Proof
end

