-- ==== Sys2Proof/Decode.lean ====
section
/-! DEFINITION. The encodings of `30_encoding.md`: format CMD32 (rules R81 to R88) and format REQ (rules R95 to
R97). A request descriptor is an op code with typed operands, not a packed word (rule R97), so the decoder reads
descriptors, and reads command words bit by bit. -/

namespace Sys2Proof

/-- `pack` of rule R86. -/
def pack : Command → Word
  | .write a v => (1#32 <<< 31) ||| (a.setWidth 32 <<< 16) ||| v.setWidth 32
  | .read a => a.setWidth 32 <<< 16

/-- `unpack` of rule R87, total on words. -/
def unpack (w : Word) : Command :=
  if w.getLsbD 31 then .write (w.extractLsb' 16 15) (w.extractLsb' 0 16)
  else .read (w.extractLsb' 16 15)

/-- A typed operand of a request (rule R97). -/
inductive Operand where
  | word (w : Word)
  | words (ws : List Word)
  | freq (f : Freq)
  | reg (r : BitVec 3)
deriving DecidableEq, Repr

/-- Format REQ (rules R95, R97 and R99): one 4-bit op code with typed operands beside it. -/
structure Descriptor where
  op : BitVec 4
  operands : List Operand
deriving DecidableEq, Repr

/-- What the decoder reads: a command word of format CMD32, or a request descriptor of format REQ. -/
inductive Encoding where
  | cmd32 (w : Word)
  | req (d : Descriptor)
deriving DecidableEq, Repr

/-- Why a descriptor is no request: its operands are not those rule R97 gives its op code. -/
inductive DecodeError where
  | operandMismatch (op : BitVec 4)
deriving DecidableEq, Repr

/-- Rule R82: the SPI command of a command word. No word is illegal (rule R94). -/
def decodeCommand (w : Word) : Instr := Instr.ofCommand (unpack w)

/-- Rules R95 to R97: the request of a descriptor. The op code is looked at first (rule R211), so a reserved op code
is reserved whatever stands beside it. -/
def decodeRequest (d : Descriptor) : Except DecodeError Instr :=
  if opReserved d.op then .ok (.reserved d.op)
  else
    match d.op.toNat, d.operands with
    | 0, [.word addr, .word value] => .ok (.encodeWrite addr value)
    | 1, [.word addr] => .ok (.encodeRead addr)
    | 2, [.word word] => .ok (.decode word)
    | 3, [.word word] => .ok (.transact word)
    | 4, [.words words] => .ok (.transactMany words)
    | 5, [.freq freq, .words cands] => .ok (.tuneCgen freq cands)
    | 6, [.reg reg] => .ok (.regRead32 reg)
    | 7, [.word div] => .ok (.clksel div)
    | _, _ => .error (.operandMismatch d.op)

/-- The decoder, total on both formats. -/
def decode : Encoding → Except DecodeError Instr
  | .cmd32 w => .ok (decodeCommand w)
  | .req d => decodeRequest d

/-- The encoder, from the tables of rules R81, R95 and R97. -/
def encode : Instr → Encoding
  | .spiWrite addr value => .cmd32 (pack (.write addr value))
  | .spiRead addr => .cmd32 (pack (.read addr))
  | .encodeWrite addr value => .req ⟨0x0, [.word addr, .word value]⟩
  | .encodeRead addr => .req ⟨0x1, [.word addr]⟩
  | .decode word => .req ⟨0x2, [.word word]⟩
  | .transact word => .req ⟨0x3, [.word word]⟩
  | .transactMany words => .req ⟨0x4, [.words words]⟩
  | .tuneCgen freq cands => .req ⟨0x5, [.freq freq, .words cands]⟩
  | .regRead32 reg => .req ⟨0x6, [.reg reg]⟩
  | .clksel div => .req ⟨0x7, [.word div]⟩
  | .reserved op => .req ⟨op, []⟩

/-- A row of the opcode table: the mask and match of its fixed bits, and its format. -/
structure OpcodeRow where
  isReq : Bool
  mask : Word
  pattern : Word
deriving DecidableEq, Repr

/-- The rows of rules R82, R95 and R96, in the opcode table's order. -/
def opcodeRows : List OpcodeRow :=
  [⟨false, 0x80000000, 0x80000000⟩, ⟨false, 0x80000000, 0⟩,
   ⟨true, 0xF, 0x0⟩, ⟨true, 0xF, 0x1⟩, ⟨true, 0xF, 0x2⟩, ⟨true, 0xF, 0x3⟩,
   ⟨true, 0xF, 0x4⟩, ⟨true, 0xF, 0x5⟩, ⟨true, 0xF, 0x6⟩, ⟨true, 0xF, 0x7⟩,
   ⟨true, 0x8, 0x8⟩]

/-- The place in `opcodeRows` of the row an instruction belongs to. -/
def Instr.rowIndex : Instr → Nat
  | .spiWrite _ _ => 0
  | .spiRead _ => 1
  | .encodeWrite _ _ => 2
  | .encodeRead _ => 3
  | .decode _ => 4
  | .transact _ => 5
  | .transactMany _ => 6
  | .tuneCgen _ _ => 7
  | .regRead32 _ => 8
  | .clksel _ => 9
  | .reserved _ => 10

/-- Whether an encoding shows the fixed bits of a row. -/
def OpcodeRow.covers (r : OpcodeRow) : Encoding → Bool
  | .cmd32 w => !r.isReq && (w &&& r.mask == r.pattern)
  | .req d => r.isReq && (d.op.setWidth 32 &&& r.mask == r.pattern)

/-- The descriptor of op code `op` whose every operand is zero (an empty list, register number 0, and for the opaque
`Freq` the positive frequency of token 0), for a table row, which gives the operands no bits. -/
def zeroDescriptor (op : BitVec 4) : Descriptor :=
  if opReserved op then ⟨op, []⟩
  else
    match op.toNat with
    | 0 => ⟨op, [.word 0, .word 0]⟩
    | 1 => ⟨op, [.word 0]⟩
    | 2 => ⟨op, [.word 0]⟩
    | 3 => ⟨op, [.word 0]⟩
    | 4 => ⟨op, [.words []]⟩
    | 5 => ⟨op, [.freq ⟨true, 0⟩, .words []]⟩
    | 6 => ⟨op, [.reg 0]⟩
    | _ => ⟨op, [.word 0]⟩

/-- What a table row's word stands for: the 32-bit rows are command words (rule R81), the others are op codes in bits
3 to 0 (rule R95) with operands of zero. -/
def tableEncoding (nbits w : Nat) : Encoding :=
  if nbits = 32 then .cmd32 (BitVec.ofNat 32 w) else .req (zeroDescriptor (BitVec.ofNat 4 w))

/-- The instruction the decoder reads from a table row's word. -/
def decodeTableWord (nbits w : Nat) : Option Instr :=
  match decode (tableEncoding nbits w) with
  | .ok i => some i
  | .error _ => none

end Sys2Proof
end

