-- ==== Sys2Proof/Machine/State.lean ====
section
/-! DEFINITION. The state of the block as plain data: its internal registers (`10_state.md` section 2), the external
registers and the bridge's slot (section 1), what stands at its ports (section 3), and the histories of what it did.
Reset values are those of `70_reset_and_hazards.md` rule R232. -/

namespace Sys2Proof.Machine

/-- `seq.st` (rule R31). -/
inductive SeqSt where
  | idle
  | wrMosi
  | wrCtrl
  | poll
  | rdMiso
deriving DecidableEq, Repr, Inhabited

/-- `seq.mode` (rule R35). -/
inductive SeqMode where
  | single
  | many
  | reg
deriving DecidableEq, Repr, Inhabited

/-- `tune.st` (rule R38). -/
inductive TuneSt where
  | tIdle
  | searching
  | succeeded
  | exhausted
deriving DecidableEq, Repr, Inhabited

/-- `tune_result` (rule R47): what the RF control library answers a tune call. -/
inductive TuneResult where
  | ok
  | err
deriving DecidableEq, Repr, Inhabited

/-- `ErrCode` (rule R201). -/
inductive ErrCode where
  | ok
  | encodingViolation
  | transactionTimeout
  | tuneFailure
  | illegalRequest
deriving DecidableEq, Repr, Inhabited

/-- The `data` of a result (rules R44 and R98). -/
inductive Data where
  | none
  | word (w : Word)
  | fields (tag : BitVec 1) (addr : ChipAddr) (payload : Half)
  | response (r : Response)
  | responses (rs : List Response)
  | code (c : ClkCode)
deriving DecidableEq, Repr, Inhabited

/-- A result (rule R44). -/
structure Result where
  code : ErrCode
  info : Word
  data : Data
deriving DecidableEq, Repr, Inhabited

/-- A bus request waiting in `arb.pending`, with its operands (rule R40). -/
inductive BusRequest where
  | transact (word : Word)
  | transactMany (words : List Word)
  | regRead32 (reg : BitVec 3)
deriving DecidableEq, Repr

/-- A TUNE_CGEN waiting in `tune.pending` (rule R41). -/
structure TuneRequest where
  freq : Freq
  cands : List Word
deriving DecidableEq, Repr

/-- The sequencer's registers (rules R31 to R35). `none` is the spec's own 'holds no value' (rule R50) for `cmd` and
`mode`, and the defined value `none` for `owner`. -/
structure Seq where
  st : SeqSt
  cmd : Option Command
  polls : Nat
  owner : Option ClientId
  mode : Option SeqMode
deriving DecidableEq, Repr

/-- The batch registers (rule R35). -/
structure Batch where
  cmds : List Command
  idx : Nat
  resps : List Response
deriving DecidableEq, Repr

/-- The tuner's registers (rules R38 and R39). `none` is the spec's own 'holds no value' (rule R50) for `freq`, and
the defined value `none` for `owner`. -/
structure Tune where
  st : TuneSt
  idx : Nat
  owner : Option ClientId
  freq : Option Freq
  cands : List Word
  budget : Nat
  waiting : Bool
  attemptsMade : Nat
deriving DecidableEq, Repr

/-- The bridge behind the register I/O provider (rules R22 to R26 and R29): its transfer slot, and the word each
external register last showed on the bus. No rule reads these words: every register read is a fresh draw (rule
R70). -/
structure Bridge where
  slot : BridgeSlot
  mosi : Word
  control : Word
  status : Word
  miso : Word
  scratch : Word
deriving DecidableEq, Repr

/-- The direction of a register access (rule R45). -/
inductive AccessKind where
  | read
  | write
deriving DecidableEq, Repr, Inhabited

/-- One register access in the bus order (rule R68), with the client the grant was held for (rule R184). -/
structure Access where
  owner : Option ClientId
  kind : AccessKind
  reg : RegId
  word : Word
deriving DecidableEq, Repr

/-- One result returned to a client: `deliver` of rule R13. -/
structure Delivery where
  client : ClientId
  result : Result
deriving DecidableEq, Repr

/-- One `tune_call` on the RF tune port (rule R47). -/
structure TuneCall where
  freq : Freq
  code : ClkCode
deriving DecidableEq, Repr

/-- A request a client is to present on its port (rule R43): one line of a program (rule R100). -/
structure PortLine where
  client : ClientId
  request : Descriptor
deriving DecidableEq, Repr

/-- Which agent of rule R6 steps next, with what the outside world chooses in that step (rules R49 and R212). -/
inductive Turn where
  /-- `Client(c)` presents its next request. -/
  | client (c : ClientId)
  /-- `Seq` steps: a grant to `pick` when it is free (rule R183), else its next register access. The bridge answers a
  read made in the step with `draw` (rule R70). -/
  | seq (pick : ClientId) (draw : Word)
  /-- `Tuner` starts the waiting TUNE_CGEN of `pick` (rule R162). -/
  | tuner (pick : ClientId)
  /-- `RFLib` answers the outstanding tune call (rules R165 and R166). -/
  | rflib (answer : TuneResult)
  /-- `Bridge` ends a transfer that the block no longer follows (rules R235 and R242). -/
  | bridge
  /-- The reset input is asserted (rules R48 and R231), with the draw of the bridge's slot at reset (rule R29). -/
  | reset (slot : BridgeSlot)
deriving DecidableEq, Repr

/-- Why the machine stops: a step read state that holds no value, or a register whose value its rules rule out. Every
one is raised only in states outside `Safety.Inv`, which no run reaches; each is safe. -/
inductive Fault where
  /-- A step needs `seq.cmd` and it holds no value (rule R50): an SPI command run in IDLE. Raised by SPI_WRITE,
  SPI_READ and the `Seq` agent. Safe. -/
  | seqCmdUnwritten
  /-- The end of a transaction needs `seq.mode` and it holds no value (rule R50). Raised by the ends of a transaction.
  Safe. -/
  | seqModeUnwritten
  /-- A result is due and no client holds the grant (rule R34). Raised by the ends of a transaction. Safe. -/
  | seqOwnerNone
  /-- A transaction ends under a REG_READ32 grant, which starts none (rule R181). Safe. -/
  | regModeInTransaction
  /-- SPI_MISO is due to be read for a Write command (rule R25 says never). Raised by SPI_WRITE. Safe. -/
  | misoReadForWrite
  /-- The next command of a batch lies past its end (rule R142). Safe. -/
  | batchIndexOutOfRange
  /-- An attempt needs `tune.freq` and it holds no value (rule R50). Raised by the tuner. Safe. -/
  | tuneFreqUnwritten
  /-- An attempt needs a candidate past the end of the list (rule R163 says there is one). Safe. -/
  | candidateOutOfRange
  /-- A tune result is due and no client's TUNE_CGEN is in progress (rule R39). Safe. -/
  | tuneOwnerNone
deriving DecidableEq, Repr, Inhabited

/-- Requests outside the domain of the block. -/
inductive Refusal where
  /-- An instruction with no meaning yet. Raised by `exec`. Safe. -/
  | notModelled (mnemonic : String)
  /-- The operands are not those the op code takes (rule R97: operands travel as typed values). Raised by the client
  port. Safe. -/
  | malformedRequest (op : BitVec 4)
  /-- The presenting client id is not below `P_NUM_CLIENTS` (rule R220). Raised by the client port. Safe. -/
  | noSuchClient
  /-- TUNE_CGEN with a frequency that is not positive (rule R172). Raised by TUNE_CGEN. Safe. -/
  | freqNotPositive
  /-- TRANSACT_MANY with a list longer than `P_BATCH_MAX` (rule R97). Raised by TRANSACT_MANY. Safe. -/
  | batchTooLong
  /-- TUNE_CGEN with a list longer than `P_CAND_MAX` (rule R97). Raised by TUNE_CGEN. Safe. -/
  | candsTooLong
deriving DecidableEq, Repr, Inhabited

/-- Everything the machine holds. -/
structure State where
  /-- The build's parameters (rule R10), which no step changes (rule R237). -/
  cfg : Config.Build
  /-- `seq.*` (rules R31 to R35). -/
  seq : Seq
  /-- `batch.*` (rule R35). -/
  batch : Batch
  /-- `sts.timeout_seen` (rule R36). -/
  timeoutSeen : Bool
  /-- `tune.*` (rules R38 and R39). -/
  tune : Tune
  /-- `arb.pending` (rule R40): a set, at most one request per client, kept by rising client id. -/
  arbPending : List (ClientId × BusRequest)
  /-- `tune.pending` (rule R41): a set, at most one request per client, kept by rising client id. -/
  tunePending : List (ClientId × TuneRequest)
  /-- The external registers and the bridge's slot (rules R21 to R29). -/
  bridge : Bridge
  /-- The requests still to be presented at the client ports, each client's in its own order (rule R43). -/
  port : List PortLine
  /-- The turns still to be taken (rule R212). -/
  turns : List Turn
  /-- The client whose request is being executed in this step. -/
  portClient : ClientId
  /-- The word the bridge answers a register read with in this step (rule R70). -/
  busAnswer : Word
  /-- Every register access so far, in bus order (rule R68). -/
  bus : List Access
  /-- Every result delivered so far (rule R44). -/
  results : List Delivery
  /-- Every tune call made so far (rule R47). -/
  calls : List TuneCall
deriving DecidableEq, Repr

/-- Rule R232: `seq.*` at reset. -/
def Seq.reset : Seq := { st := .idle, cmd := none, polls := 0, owner := none, mode := none }

/-- Rule R232: `batch.*` at reset. -/
def Batch.reset : Batch := { cmds := [], idx := 0, resps := [] }

/-- Rule R232: `tune.*` at reset. -/
def Tune.reset : Tune :=
  { st := .tIdle, idx := 0, owner := none, freq := none, cands := [], budget := 0, waiting := false,
    attemptsMade := 0 }

/-- The external registers and the slot at power-up: free values (rules R28, R29 and R235). -/
def Bridge.powerUp : Bridge :=
  { slot := Config.slotAtReset,
    mosi := Config.externalAtReset .spiMosi,
    control := Config.externalAtReset .spiControl,
    status := Config.externalAtReset .spiStatus,
    miso := Config.externalAtReset .spiMiso,
    scratch := Config.externalAtReset .ctrlScratch }

/-- The machine right after power-up reset, for any build and any state of the bridge (rules R232 and R233). -/
def State.resetWith (cfg : Config.Build) (bridge : Bridge) : State :=
  { cfg := cfg,
    seq := Seq.reset,
    batch := Batch.reset,
    timeoutSeen := false,
    tune := Tune.reset,
    arbPending := [],
    tunePending := [],
    bridge := bridge,
    port := [],
    turns := [],
    portClient := 0,
    busAnswer := 0,
    bus := [],
    results := [],
    calls := [] }

/-- The machine right after reset (rule R232), of the block as built, before a client presents a request. -/
def State.reset : State := State.resetWith Config.built Bridge.powerUp

end Sys2Proof.Machine
end

