-- ==== Sys2Proof/Machine/Flags.lean ====
section
/-! DEFINITION. The flags of the hardware (`10_state.md` rule R37), the info words that report an error's causes
(`60_exceptions.md` rule R201), and the numbers results cross the port as. -/

namespace Sys2Proof.Machine

/-- Rule R92: `done(s) = ((s & P_STATUS_DONE_MASK) != 0)`. -/
def statusDone (cfg : Config.Build) (s : Word) : Bool := (s &&& cfg.statusDoneMask) != 0

/-- Rule R111: the info word of an ENCODING_VIOLATION; bit 0 the address, bit 1 the value, both when both. -/
def violationInfo (addrBad valueBad : Bool) : Word :=
  (if addrBad then 0x1#32 else 0) ||| (if valueBad then 0x2#32 else 0)

/-- Rules R96 and R206: the info word of a reserved op code. -/
def illegalOpInfo (op : BitVec 4) : Word := op.setWidth 32

/-- Rule R187: the info word of a REG_READ32 of an illegal register. -/
def illegalRegInfo (reg : BitVec 3) : Word := 0x100#32 ||| (reg.setWidth 32 <<< 4) ||| 0x6#32

/-- Rule R36: a timeout sets the sticky flag. -/
def setTimeoutSeen (s : State) : State := { s with timeoutSeen := true }

/-- Rule R201: the number of an error code, 3 bits wide. -/
def ErrCode.bits : ErrCode → BitVec 3
  | .ok => 0
  | .encodingViolation => 1
  | .transactionTimeout => 2
  | .tuneFailure => 3
  | .illegalRequest => 4

/-- Rule R98: a response as a 32-bit word. -/
def responseWord : Response → Word
  | .value v => v.setWidth 32
  | .noPayload => 0x80000000

end Sys2Proof.Machine
end

