-- ==== Sys2Proof/Machine/Operands.lean ====
section
/-! DEFINITION. The operand forms of the requests and the checks made on them (`30_encoding.md` rule R97). -/

namespace Sys2Proof.Machine

/-- Rule R111: an `addr` operand fits 15 bits. -/
def addrFits (addr : Word) : Bool := decide (addr.toNat ≤ 0x7FFF)

/-- Rule R111: a `value` operand fits 16 bits. -/
def valueFits (value : Word) : Bool := decide (value.toNat ≤ 0xFFFF)

/-- `addr[14:0]`, taken only of an operand that fits (rule R116). -/
def addrField (addr : Word) : ChipAddr := addr.extractLsb' 0 15

/-- `value[15:0]`, taken only of an operand that fits (rule R116). -/
def valueField (value : Word) : Half := value.extractLsb' 0 16

/-- Rule R97: the register a `reg` operand names; 5 to 7 name none. -/
def regOfNumber (reg : BitVec 3) : Option RegId :=
  match reg.toNat with
  | 0 => some .spiMosi
  | 1 => some .spiControl
  | 2 => some .spiStatus
  | 3 => some .spiMiso
  | 4 => some .ctrlScratch
  | _ => none

/-- Rule R187: only CTRL_SCRATCH may be read by a client. -/
def regReadable (reg : BitVec 3) : Bool := decide (regOfNumber reg = some .ctrlScratch)

/-- Rule R97: the command words of a batch, in order. -/
def batchCommands (words : List Word) : List Command := words.map unpack

/-- Rule R113: the fields DECODE answers for a command. -/
def commandFields : Command → Data
  | .write a v => .fields 1 a v
  | .read a => .fields 0 a 0

/-- Rule R161: the clock-select code of a divider. -/
def clkCode (div : Word) : ClkCode :=
  if div = 1 then 0 else if div = 2 then 1 else if div = 4 then 2 else 3

/-- Rule R163: the attempt budget of a candidate list. -/
def tuneBudget (cands : List Word) : Nat := min Config.maxAttempts cands.length

/-- Rule R90: the response of a Read for the SPI_MISO word `m`. -/
def readResponse (m : Word) : Response := .value (m.extractLsb' 0 16)

end Sys2Proof.Machine
end

