-- ==== Sys2Proof/Machine/Pending.lean ====
section
/-! DEFINITION. The sets of waiting requests (`10_state.md` rules R40 and R41): a list by strictly rising client id,
so that equal sets are equal data and a client has at most one entry (`43_register_arbiter.md` rule R182). -/

namespace Sys2Proof.Machine

/-- The canonical form: client ids strictly rising. -/
def Pending.wf {α : Type} : List (ClientId × α) → Bool
  | [] => true
  | [_] => true
  | (c, _) :: (d, b) :: t => decide (c < d) && Pending.wf ((d, b) :: t)

/-- The set with the entry `(c, a)`. -/
def Pending.insert {α : Type} (c : ClientId) (a : α) : List (ClientId × α) → List (ClientId × α)
  | [] => [(c, a)]
  | (d, b) :: t =>
    if c < d then (c, a) :: (d, b) :: t
    else if c = d then (c, a) :: t
    else (d, b) :: Pending.insert c a t

/-- The request `c` has waiting, if any. -/
def Pending.lookup {α : Type} (c : ClientId) : List (ClientId × α) → Option α
  | [] => none
  | (d, b) :: t => if d = c then some b else Pending.lookup c t

/-- The set without the entry of `c`. -/
def Pending.erase {α : Type} (c : ClientId) : List (ClientId × α) → List (ClientId × α)
  | [] => []
  | (d, b) :: t => if d = c then t else (d, b) :: Pending.erase c t

/-- Whether `c` has a request waiting. -/
def Pending.has {α : Type} (c : ClientId) (l : List (ClientId × α)) : Bool :=
  (Pending.lookup c l).isSome

end Sys2Proof.Machine
end

