-- ==== Sys2Proof/Machine/Ops.lean ====
section
/-! DEFINITION. The named operations the meanings are written with: register accesses (`00_scope.md` rule R13),
delivering a result, ending a request with an error (`60_exceptions.md` rule R207), release, `start`, and reset. -/

namespace Sys2Proof.Machine

/-- The outcome of a step of this machine. -/
abbrev Out := Host.Outcome State Fault Refusal

/-- The bridge after a write of `v` to `r`: a write of SPI_CONTROL puts a transfer in flight (rules R29 and R67). -/
def Bridge.onWrite (b : Bridge) (r : RegId) (v : Word) : Bridge :=
  match r with
  | .spiMosi => { b with mosi := v }
  | .spiControl => { b with control := v, slot := .busy }
  | .spiStatus => { b with status := v }
  | .spiMiso => { b with miso := v }
  | .ctrlScratch => { b with scratch := v }

/-- The bridge after a read of `r` that it answered with `v`: its report of done frees the slot (rule R29). -/
def Bridge.onRead (cfg : Config.Build) (b : Bridge) (r : RegId) (v : Word) : Bridge :=
  match r with
  | .spiMosi => { b with mosi := v }
  | .spiControl => { b with control := v }
  | .spiStatus => { b with status := v, slot := if statusDone cfg v then .idle else b.slot }
  | .spiMiso => { b with miso := v }
  | .ctrlScratch => { b with scratch := v }

/-- `RegWrite(r, v)` (rule R13): one access, for the client that holds the grant. -/
def regWrite (r : RegId) (v : Word) (s : State) : State :=
  { s with bridge := s.bridge.onWrite r v, bus := s.bus ++ [⟨s.seq.owner, .write, r, v⟩] }

/-- `RegRead(r)` (rule R13): one access, answered with the step's draw `s.busAnswer` (rule R70), which is the value
the rule that reads goes on with. -/
def regRead (r : RegId) (s : State) : State :=
  { s with bridge := s.bridge.onRead s.cfg r s.busAnswer,
           bus := s.bus ++ [⟨s.seq.owner, .read, r, s.busAnswer⟩] }

/-- `deliver(c, r)` (rule R13). -/
def deliver (c : ClientId) (r : Result) (s : State) : State :=
  { s with results := s.results ++ [⟨c, r⟩] }

/-- A result with code OK and info 0 (rule R44). -/
def okResult (d : Data) : Result := ⟨.ok, 0, d⟩

/-- `raise E(info)` (rules R13 and R207): the request of `c` ends with the error and no data. Nothing is saved and
control goes nowhere, so there is no return from it either (rule R214). -/
def raiseError (c : ClientId) (e : ErrCode) (info : Word) (s : State) : State :=
  deliver c ⟨e, info, .none⟩ s

/-- `release()` (rule R185). -/
def release (s : State) : State := { s with seq := { s.seq with owner := none, mode := none } }

/-- `start(cmd)` (rule R132). -/
def start (cmd : Command) (s : State) : State :=
  { s with seq := { s.seq with cmd := some cmd, polls := 0, st := .wrMosi } }

/-- The sequencer leaves a transaction: IDLE, and `seq.cmd` holds no value (rule R138). -/
def endTransaction (s : State) : State := { s with seq := { s.seq with st := .idle, cmd := none } }

/-- Whether `c` has a request outstanding (rule R43): waiting, granted or being tuned. -/
def outstanding (c : ClientId) (s : State) : Bool :=
  Pending.has c s.arbPending || Pending.has c s.tunePending ||
    decide (s.seq.owner = some c) || decide (s.tune.owner = some c)

/-- What asserting reset does (rules R231 to R233): the internal registers take their reset values and every request
in progress is abandoned; the external registers are not touched. Whether a transfer is in flight after it is not
known, so the bridge's slot is the draw `slot` (rules R29 and R235). -/
def assertReset (slot : BridgeSlot) (s : State) : State :=
  { s with seq := Seq.reset, batch := Batch.reset, timeoutSeen := false, tune := Tune.reset,
           arbPending := [], tunePending := [], bridge := { s.bridge with slot := slot } }

/-- The bridge's transfer ends with no report to the block: its slot is free (rule R29). -/
def freeSlot (s : State) : State := { s with bridge := { s.bridge with slot := .idle } }

end Sys2Proof.Machine
end

