-- ==== Sys2Proof/Machine/Sequencer.lean ====
section
/-! DEFINITION. The transaction sequencer (`41_transaction_sequencer.md`): the two SPI commands as `Seq` runs them, one
register access a step (rules R133 to R138), and the ends of a transaction within a batch (rules R142 and R143). -/

namespace Sys2Proof.Machine

/-- The response of the command at `batch.idx` is collected (rule R142). -/
def collect (r : Response) (s : State) : State :=
  { s with batch := { s.batch with resps := s.batch.resps ++ [r], idx := s.batch.idx + 1 } }

/-- The next command of the batch starts, or its result is delivered (rule R142), for the granted client `c`. -/
def batchGoOn (c : ClientId) (s : State) : Out :=
  if s.batch.idx = s.batch.cmds.length then .next (release (deliver c (okResult (.responses s.batch.resps)) s))
  else
    match s.batch.cmds[s.batch.idx]? with
    | some cmd => .next (start cmd s)
    | none => .fault .batchIndexOutOfRange

/-- `batch_next(r)` (rule R142), for the granted client `c`. -/
def batchNext (c : ClientId) (r : Response) (s : State) : Out := batchGoOn c (collect r s)

/-- `batch_abort(e)` (rule R143), for the granted client `c`. -/
def batchAbort (c : ClientId) (e : ErrCode) (s : State) : Out :=
  .next (release (raiseError c e (BitVec.ofNat 32 s.batch.idx) s))

/-- `complete(r)` (rule R138). -/
def complete (r : Response) (s : State) : Out :=
  match s.seq.mode, s.seq.owner with
  | none, _ => .fault .seqModeUnwritten
  | some .reg, _ => .fault .regModeInTransaction
  | some _, none => .fault .seqOwnerNone
  | some .single, some c => .next (release (deliver c (okResult (.response r)) (endTransaction s)))
  | some .many, some c => batchNext c r (endTransaction s)

/-- `fail(e)` (rules R138 and R207). -/
def fail (e : ErrCode) (s : State) : Out :=
  match s.seq.mode, s.seq.owner with
  | none, _ => .fault .seqModeUnwritten
  | some .reg, _ => .fault .regModeInTransaction
  | some _, none => .fault .seqOwnerNone
  | some .single, some c => .next (release (raiseError c e 0 (endTransaction s)))
  | some .many, some c => batchAbort c e (endTransaction s)

/-- Step WR_MOSI (rule R133). The word written is the packed command, never the word presented (rule R147). -/
def stepWrMosi (cmd : Command) (s : State) : Out :=
  let t := regWrite .spiMosi (pack cmd) s
  .next { t with seq := { t.seq with st := .wrCtrl } }

/-- Step WR_CTRL (rule R134). -/
def stepWrCtrl (s : State) : Out :=
  let t := regWrite .spiControl s.cfg.ctrlStartWord s
  .next { t with seq := { t.seq with st := .poll } }

/-- The read of step POLL: SPI_STATUS is read and counted (rule R135). -/
def pollRead (s : State) : State :=
  let t := regRead .spiStatus s
  { t with seq := { t.seq with polls := t.seq.polls + 1 } }

/-- Step POLL when the done flag is not set (rule R136), after its read. -/
def pollNotDone (s : State) : Out :=
  if s.cfg.pollLimit = some s.seq.polls then fail .transactionTimeout (setTimeoutSeen s)
  else .next s

/-- Step RD_MISO (rule R137). -/
def stepRdMiso (s : State) : Out :=
  complete (readResponse s.busAnswer) (regRead .spiMiso s)

/-- SPI_WRITE (rules R114 and R131): the next register access of the transaction of `Write{addr, value}`. -/
def execSpiWrite (addr : ChipAddr) (value : Half) (s : State) : Out :=
  match s.seq.st with
  | .idle => .fault .seqCmdUnwritten
  | .wrMosi => stepWrMosi (.write addr value) s
  | .wrCtrl => stepWrCtrl s
  | .poll =>
    if statusDone s.cfg s.busAnswer then complete .noPayload (pollRead s) else pollNotDone (pollRead s)
  | .rdMiso => .fault .misoReadForWrite

/-- SPI_READ (rules R115 and R131): the next register access of the transaction of `Read{addr}`. -/
def execSpiRead (addr : ChipAddr) (s : State) : Out :=
  match s.seq.st with
  | .idle => .fault .seqCmdUnwritten
  | .wrMosi => stepWrMosi (.read addr) s
  | .wrCtrl => stepWrCtrl s
  | .poll =>
    if statusDone s.cfg s.busAnswer then
      let t := pollRead s
      .next { t with seq := { t.seq with st := .rdMiso } }
    else pollNotDone (pollRead s)
  | .rdMiso => stepRdMiso s

end Sys2Proof.Machine
end

