-- ==== Sys2Proof/Machine/Arbiter.lean ====
section
/-! DEFINITION. The register I/O arbiter (`43_register_arbiter.md`): acceptance of the bus requests TRANSACT,
TRANSACT_MANY and REG_READ32 (rules R182 and R187), and the grant (rule R181). -/

namespace Sys2Proof.Machine

/-- Acceptance (rule R182): the presenting client's request waits in `arb.pending`. -/
def acceptBus (q : BusRequest) (s : State) : State :=
  { s with arbPending := Pending.insert s.portClient q s.arbPending }

/-- TRANSACT at its presentation (rules R140 and R182). -/
def execTransact (word : Word) (s : State) : Out := .next (acceptBus (.transact word) s)

/-- TRANSACT_MANY at its presentation (rules R141 and R182); a list past its bound is refused (rules R97 and
R216). -/
def execTransactMany (words : List Word) (s : State) : Out :=
  if fits words s.cfg.batchMax then .next (acceptBus (.transactMany words) s)
  else .refused .batchTooLong

/-- REG_READ32 at its presentation (rules R182, R186 and R187). -/
def execRegRead32 (reg : BitVec 3) (s : State) : Out :=
  if regReadable reg then .next (acceptBus (.regRead32 reg) s)
  else .next (raiseError s.portClient .illegalRequest (illegalRegInfo reg) s)

/-- The grant register and mode take the granted client and its kind of request (rule R181). -/
def holdGrant (c : ClientId) (m : SeqMode) (s : State) : State :=
  { s with seq := { s.seq with owner := some c, mode := some m },
           arbPending := Pending.erase c s.arbPending }

/-- The granted TRANSACT starts (rules R140 and R181). -/
def grantTransact (c : ClientId) (word : Word) (s : State) : State :=
  start (unpack word) (holdGrant c .single s)

/-- The granted TRANSACT_MANY: batch init (rule R141), and the empty batch ends at once (rule R144). -/
def grantMany (c : ClientId) (words : List Word) (s : State) : State :=
  let t := { holdGrant c .many s with batch := { cmds := batchCommands words, idx := 0, resps := [] } }
  match batchCommands words with
  | [] => release (deliver c (okResult (.responses [])) t)
  | cmd :: _ => start cmd t

/-- The granted REG_READ32 (rule R186): one read of CTRL_SCRATCH, the result and the release, in one step. -/
def grantReg (c : ClientId) (s : State) : State :=
  release (deliver c (okResult (.word s.busAnswer)) (regRead .ctrlScratch (holdGrant c .reg s)))

/-- The grant of the request of `pick` (rule R181). A client with none waiting cannot be granted: no step. -/
def grant (pick : ClientId) (s : State) : State :=
  match Pending.lookup pick s.arbPending with
  | none => s
  | some (.transact word) => grantTransact pick word s
  | some (.transactMany words) => grantMany pick words s
  | some (.regRead32 _) => grantReg pick s

end Sys2Proof.Machine
end

