-- ==== Sys2Proof/Machine/Codec.lean ====
section
/-! DEFINITION. The command codec (`40_command_codec.md`): ENCODE_WRITE, ENCODE_READ, DECODE; and the reserved op
codes (`30_encoding.md` rule R96). Each is answered in the step it is presented, makes no register access and writes
no register of the block (rule R117). -/

namespace Sys2Proof.Machine

/-- ENCODE_WRITE (rule R111). -/
def execEncodeWrite (addr value : Word) (s : State) : Out :=
  let info := violationInfo (!addrFits addr) (!valueFits value)
  if info ≠ 0 then .next (raiseError s.portClient .encodingViolation info s)
  else .next (deliver s.portClient (okResult (.word (pack (.write (addrField addr) (valueField value))))) s)

/-- ENCODE_READ (rule R112). -/
def execEncodeRead (addr : Word) (s : State) : Out :=
  if addrFits addr then .next (deliver s.portClient (okResult (.word (pack (.read (addrField addr))))) s)
  else .next (raiseError s.portClient .encodingViolation (violationInfo true false) s)

/-- DECODE (rule R113). -/
def execDecode (word : Word) (s : State) : Out :=
  .next (deliver s.portClient (okResult (commandFields (unpack word))) s)

/-- A reserved op code (rules R96 and R206). -/
def execReserved (op : BitVec 4) (s : State) : Out :=
  .next (raiseError s.portClient .illegalRequest (illegalOpInfo op) s)

end Sys2Proof.Machine
end

