-- ==== Sys2Proof/Machine/Tuner.lean ====
section
/-! DEFINITION. The tuning retry loop (`42_tuning_retry.md`): CLKSEL, TUNE_CGEN, and the tuner's own steps. The tuner
makes no register access and holds no grant (rule R168). -/

namespace Sys2Proof.Machine

/-- CLKSEL (rule R161). -/
def execClksel (div : Word) (s : State) : Out :=
  .next (deliver s.portClient (okResult (.code (clkCode div))) s)

/-- `attempt(i)` (rule R164): one tune call for candidate `i`. -/
def attempt (i : Nat) (s : State) : Out :=
  match s.tune.cands[i]?, s.tune.freq with
  | none, _ => .fault .candidateOutOfRange
  | some _, none => .fault .tuneFreqUnwritten
  | some div, some freq =>
    .next { s with calls := s.calls ++ [⟨freq, clkCode div⟩],
                   tune := { s.tune with waiting := true, attemptsMade := i + 1 } }

/-- The request of `c` starts (rule R162). -/
def beginTune (c : ClientId) (freq : Freq) (cands : List Word) (s : State) : Out :=
  let t := { s with tune := { s.tune with owner := some c, freq := some freq, cands := cands,
                                          budget := tuneBudget cands, idx := 0, attemptsMade := 0 } }
  if tuneBudget cands = 0 then
    let u := { t with tune := { t.tune with st := .exhausted, owner := none } }
    .next (raiseError c .tuneFailure 0 u)
  else attempt 0 { t with tune := { t.tune with st := .searching } }

/-- TUNE_CGEN at its presentation (rule R162): it waits in `tune.pending` while another is in progress, and starts
otherwise. A frequency that is not positive (rule R172) and a list past its bound (rule R97) are refused. -/
def execTuneCgen (freq : Freq) (cands : List Word) (s : State) : Out :=
  if !freq.positive then .refused .freqNotPositive
  else if !fits cands s.cfg.candMax then .refused .candsTooLong
  else if s.tune.st = .searching then
    .next { s with tunePending := Pending.insert s.portClient ⟨freq, cands⟩ s.tunePending }
  else beginTune s.portClient freq cands s

/-- The tuner starts the waiting request of `pick` (rule R162), if it is free and there is one. -/
def startPendingTune (pick : ClientId) (s : State) : Out :=
  if s.tune.st = .searching then .next s
  else
    match Pending.lookup pick s.tunePending with
    | none => .next s
    | some q => beginTune pick q.freq q.cands { s with tunePending := Pending.erase pick s.tunePending }

/-- Attempt success (rule R165). -/
def attemptOk (s : State) : Out :=
  match s.tune.owner with
  | none => .fault .tuneOwnerNone
  | some c =>
    let t := { s with tune := { s.tune with waiting := false, st := .succeeded, owner := none } }
    .next (deliver c ⟨.ok, BitVec.ofNat 32 s.tune.attemptsMade, .none⟩ t)

/-- Attempt failure (rule R166). -/
def attemptErr (s : State) : Out :=
  if s.tune.idx + 1 = s.tune.budget then
    match s.tune.owner with
    | none => .fault .tuneOwnerNone
    | some c =>
      let t := { s with tune := { s.tune with waiting := false, st := .exhausted, owner := none } }
      .next (raiseError c .tuneFailure (BitVec.ofNat 32 s.tune.budget) t)
  else
    attempt (s.tune.idx + 1) { s with tune := { s.tune with waiting := false, idx := s.tune.idx + 1 } }

/-- The self-wait of rule R244: the RF control library waits for a TUNE_CGEN of its own, so it cannot answer. -/
def rflibSelfWait (s : State) : Bool := Pending.has s.cfg.rflibClient s.tunePending

/-- Whether the RF control library has a request of its own waiting or granted. It then waits for that request's result
(rule R43), so it does not answer its tune call: a tune result comes after every access the library made for its
attempts (rule R208). The self-wait is the case that nothing lifts. -/
def rflibBusy (s : State) : Bool :=
  Pending.has s.cfg.rflibClient s.arbPending || rflibSelfWait s ||
    decide (s.seq.owner = some s.cfg.rflibClient)

/-- The RF control library answers the outstanding tune call (rules R165 and R166). With no call outstanding, or with
the library waiting for a request of its own (rules R43, R208 and R244), there is no step. -/
def tuneAnswer (answer : TuneResult) (s : State) : Out :=
  if s.tune.waiting && !rflibBusy s then
    match answer with
    | .ok => attemptOk s
    | .err => attemptErr s
  else .next s

end Sys2Proof.Machine
end

