-- ==== Sys2Proof/Machine/Dispatch.lean ====
section
/-! DEFINITION. One arm per constructor of `Instr`. -/

namespace Sys2Proof.Machine

def exec (i : Instr) (s : State) : Host.Outcome State Fault Refusal :=
  match i with
  | .spiWrite addr value => Sys2Proof.Machine.execSpiWrite addr value s
  | .spiRead addr => Sys2Proof.Machine.execSpiRead addr s
  | .encodeWrite addr value => Sys2Proof.Machine.execEncodeWrite addr value s
  | .encodeRead addr => Sys2Proof.Machine.execEncodeRead addr s
  | .decode word => Sys2Proof.Machine.execDecode word s
  | .transact word => Sys2Proof.Machine.execTransact word s
  | .transactMany words => Sys2Proof.Machine.execTransactMany words s
  | .tuneCgen freq cands => Sys2Proof.Machine.execTuneCgen freq cands s
  | .regRead32 reg => Sys2Proof.Machine.execRegRead32 reg s
  | .clksel div => Sys2Proof.Machine.execClksel div s
  | .reserved op => Sys2Proof.Machine.execReserved op s

end Sys2Proof.Machine
end

