-- ==== Sys2Proof/Machine/Agents.lean ====
section
/-! DEFINITION. The steps of the agents (`00_scope.md` rule R6). A turn given to an agent that has no enabled step
changes nothing (rule R222). -/

namespace Sys2Proof.Machine

/-- The next request of `c` at its port, and the lines left without it (rule R43). -/
def takeLine (c : ClientId) : List PortLine → Option (Descriptor × List PortLine)
  | [] => none
  | l :: t =>
    if l.client = c then some (l.request, t)
    else
      match takeLine c t with
      | none => none
      | some (d, rest) => some (d, l :: rest)

/-- Whether `c` is one of the block's clients (rule R220). -/
def clientExists (cfg : Config.Build) (c : ClientId) : Bool := decide (c < cfg.numClients)

/-- A request is presented by `c`: it is decoded and executed (rules R43 and R95). -/
def present (c : ClientId) (d : Descriptor) (rest : List PortLine) (s : State) : Out :=
  match decodeRequest d with
  | .error (.operandMismatch op) => .refused (.malformedRequest op)
  | .ok i => exec i { s with portClient := c, port := rest }

/-- `Client(c)` steps: it presents its next request, unless its last is still outstanding (rule R43). -/
def clientTurn (c : ClientId) (s : State) : Out :=
  if !clientExists s.cfg c then .refused .noSuchClient
  else if outstanding c s then .next s
  else
    match takeLine c s.port with
    | none => .next s
    | some (d, rest) => present c d rest s

/-- Whether the grant of the request of `pick` is enabled (rule R181). -/
def grantEnabled (pick : ClientId) (s : State) : Bool :=
  decide (s.seq.owner = none) && decide (s.seq.st = .idle) && Pending.has pick s.arbPending

/-- The next register access of the command in `seq.cmd` (rules R133 to R137). -/
def seqAccess (s : State) : Out :=
  match s.seq.cmd with
  | none => .fault .seqCmdUnwritten
  | some cmd => exec (Instr.ofCommand cmd) s

/-- `Seq` steps: the next register access of the transaction in progress, or a grant when it is free. -/
def seqTurn (pick : ClientId) (draw : Word) (s : State) : Out :=
  if s.seq.st = .idle then
    if grantEnabled pick s then .next (grant pick { s with busAnswer := draw }) else .next s
  else seqAccess { s with busAnswer := draw }

/-- `Bridge` steps: a transfer ends that a timeout or a reset has left in flight (rules R235 and R242), so that
`bridge_idle` may hold again. In POLL the block follows the transfer, whose end is the done answer (rule R29), and
there is no step. -/
def bridgeTurn (s : State) : Out := if s.seq.st = .poll then .next s else .next (freeSlot s)

/-- The step of the agent a turn names. -/
def takeTurn (turn : Turn) (s : State) : Out :=
  match turn with
  | .client c => clientTurn c s
  | .seq pick draw => seqTurn pick draw s
  | .tuner pick => startPendingTune pick s
  | .rflib answer => tuneAnswer answer s
  | .bridge => bridgeTurn s
  | .reset slot => .next (assertReset slot s)

/-- The step: the next turn is taken; with none left nothing moves and the state is kept (rule R222). -/
def runTurn (s : State) : Out :=
  match s.turns with
  | [] => .next s
  | turn :: rest => takeTurn turn { s with turns := rest }

/-- The state in which `Client(0)` presents `d` next. -/
def withRequest (d : Descriptor) (s : State) : State :=
  { s with port := ⟨0, d⟩ :: s.port, turns := .client 0 :: s.turns }

/-- The state in which the sequencer is at WR_MOSI of a TRANSACT of `w` granted to client 0, and `Seq` steps next. -/
def withCommand (w : Word) (s : State) : State :=
  { s with seq := { st := .wrMosi, cmd := some (unpack w), polls := 0, owner := some 0, mode := some .single },
           turns := .seq 0 0 :: s.turns }

/-- The state in which the next step runs the encoded instruction. -/
def placeEncoding (e : Encoding) (s : State) : State :=
  match e with
  | .cmd32 w => withCommand w s
  | .req d => withRequest d s

end Sys2Proof.Machine
end

