-- ==== Sys2Proof/Machine/Step.lean ====
section
/-! DEFINITION. One step of the machine, and how a table row's word comes to be its next instruction. -/

namespace Sys2Proof.Machine

/-- One transition (rule R8): the agent whose turn it is steps. -/
def step (s : State) : Host.Outcome State Fault Refusal := runTurn s

/-- `s` with the instruction of a table row's word where the next step fetches it. -/
def State.withFetchWord (s : State) (nbits w : Nat) : State := placeEncoding (tableEncoding nbits w) s

end Sys2Proof.Machine
end

