-- ==== Sys2Proof/Machine/Assembler.lean ====
section
/-! DEFINITION. The request-sequence syntax of `30_encoding.md` rules R100 to R104, as abstract syntax: the forms, the
command operands, the pseudo-instructions and their expansions, and the requests a program stands for. A `<freq>` is
a value of the opaque `Freq` (rule R101). -/

namespace Sys2Proof.Machine

/-- A command operand `<cmd>` (rule R101). -/
inductive AsmCmd where
  | wr (addr value : Nat)
  | rd (addr : Nat)
  | word (w : Word)
deriving DecidableEq, Repr

/-- The forms of rule R100 and the pseudo-instructions of rule R103. -/
inductive AsmLine where
  | encw (addr value : Word)
  | encr (addr : Word)
  | dec (word : Word)
  | tx (cmd : AsmCmd)
  | txm (cmds : List AsmCmd)
  | tune (freq : Freq) (divs : List Word)
  | rdreg (reg : RegId)
  | clksel (div : Word)
  | poke (addr value : Nat)
  | peek (addr : Nat)
  | scratch
  | tuneFixed (freq : Freq) (div : Word)
deriving DecidableEq, Repr

/-- A line with its client prefix (rule R100), `c0` where it has none. -/
structure AsmProgramLine where
  client : ClientId := 0
  line : AsmLine
deriving DecidableEq, Repr

/-- The word of a command operand (rule R101), refused out of range and never truncated (rule R102). -/
def AsmCmd.assemble : AsmCmd → Option Word
  | .wr a v =>
    if a ≤ 0x7FFF ∧ v ≤ 0xFFFF then some (pack (.write (BitVec.ofNat 15 a) (BitVec.ofNat 16 v))) else none
  | .rd a => if a ≤ 0x7FFF then some (pack (.read (BitVec.ofNat 15 a))) else none
  | .word w => some w

/-- The words of a list of command operands, refused when one of them is. -/
def assembleCmds : List AsmCmd → Option (List Word)
  | [] => some []
  | c :: t =>
    match c.assemble, assembleCmds t with
    | some w, some ws => some (w :: ws)
    | _, _ => none

/-- Rule R97: the number of a register name. -/
def regNumber : RegId → BitVec 3
  | .spiMosi => 0
  | .spiControl => 1
  | .spiStatus => 2
  | .spiMiso => 3
  | .ctrlScratch => 4

/-- The expansions of rule R103; a line that is no pseudo-instruction stands for itself. -/
def AsmLine.expand : AsmLine → AsmLine
  | .poke a v => .tx (.wr a v)
  | .peek a => .tx (.rd a)
  | .scratch => .rdreg .ctrlScratch
  | .tuneFixed f d => .tune f (List.replicate Config.maxAttempts d)
  | l => l

/-- The request of an expanded line (rule R100). -/
def AsmLine.request : AsmLine → Option Instr
  | .encw a v => some (.encodeWrite a v)
  | .encr a => some (.encodeRead a)
  | .dec w => some (.decode w)
  | .tx c => c.assemble.map .transact
  | .txm cs => (assembleCmds cs).map .transactMany
  | .tune f ds => some (.tuneCgen f ds)
  | .rdreg r => some (.regRead32 (regNumber r))
  | .clksel d => some (.clksel d)
  | _ => none

/-- The request a line assembles to. -/
def AsmLine.assemble (l : AsmLine) : Option Instr := l.expand.request

/-- The encoding of a line (rule R104): its op code and operands, every command operand as a word. -/
def AsmLine.descriptor (l : AsmLine) : Option Descriptor :=
  match l.assemble.map encode with
  | some (.req d) => some d
  | _ => none

/-- The port lines of a program, refused when a line is. -/
def assembleProgram : List AsmProgramLine → Option (List PortLine)
  | [] => some []
  | l :: t =>
    match l.line.descriptor, assembleProgram t with
    | some d, some ds => some (⟨l.client, d⟩ :: ds)
    | _, _ => none

/-- The machine with a program at its client ports and an interleaving of the agents' turns to run it by. -/
def State.load (s : State) (lines : List PortLine) (turns : List Turn) : State :=
  { s with port := s.port ++ lines, turns := s.turns ++ turns }

end Sys2Proof.Machine
end

