-- ==== Sys2Proof/Machine/Outputs.lean ====
section
/-! DEFINITION. The status outputs (`10_state.md` rule R42), which the environment reads at any time, and what the
block's other outward ports show. -/

namespace Sys2Proof.Machine

/-- `sts_busy`. -/
def stsBusy (s : State) : Bool := s.seq.owner.isSome

/-- `sts_timeout_seen`. -/
def stsTimeoutSeen (s : State) : Bool := s.timeoutSeen

/-- `sts_tune_state`. -/
def stsTuneState (s : State) : TuneSt := s.tune.st

/-- `sts_attempts_made`. -/
def stsAttemptsMade (s : State) : Nat := s.tune.attemptsMade

/-- The bus trace with each access named by its bus address (rule R13, `MemRead` and `MemWrite`). -/
def busByAddress (s : State) : List (AccessKind × Word × Word) :=
  s.bus.map fun a => (a.kind, s.cfg.regAddrs.addr a.reg, a.word)

/-- The tune calls as the RF control library receives them (rule R47): each with its value of the OPEN type `Freq`. -/
def tuneCallValues (s : State) : List (Config.freqType.carrier × ClkCode) :=
  s.calls.map fun t => (Config.freqType.value t.freq, t.code)

end Sys2Proof.Machine
end

