-- ==== Sys2Proof/Safety.lean ====
section
/-! DEFINITION. What the spec says of every state between two steps (`Inv`), what it calls a hazard, and the launch
premise; the terms the statements use. -/

namespace Sys2Proof.Machine

/-- Rules R32, R34, R35, R137 and R181: `seq.cmd`, `seq.owner` and `seq.mode` hold values exactly while a transaction is
in progress; RD_MISO is a Read's; no REG grant outlives its step. -/
structure SeqInv (s : State) : Prop where
  cmd_iff : s.seq.cmd.isSome = true ↔ s.seq.st ≠ .idle
  owner_iff : s.seq.owner.isSome = true ↔ s.seq.st ≠ .idle
  mode_iff : s.seq.mode.isSome = true ↔ s.seq.owner.isSome = true
  mode_not_reg : s.seq.mode ≠ some .reg
  rdMiso_read : s.seq.st = .rdMiso → ∃ a, s.seq.cmd = some (.read a)

/-- Rules R33, R132 and R136: no STATUS read has been made before POLL, and under `P_POLL_LIMIT = N` fewer than `N`
before each next one and never more than `N`. -/
structure PollInv (s : State) : Prop where
  start_zero : s.seq.st = .wrMosi ∨ s.seq.st = .wrCtrl → s.seq.polls = 0
  below_limit : ∀ n, s.cfg.pollLimit = some n → s.seq.st = .poll → s.seq.polls < n
  at_most_limit : ∀ n, s.cfg.pollLimit = some n → s.seq.polls ≤ n

/-- Rules R35, R141 and R142: the batch is within its bound, and while one is in progress `batch.idx` is the place of
the command in `seq.cmd`, with one response collected for each command before it. -/
structure BatchInv (s : State) : Prop where
  length_le : s.batch.cmds.length ≤ s.cfg.batchMax
  at_idx : s.seq.mode = some .many → s.batch.cmds[s.batch.idx]? = s.seq.cmd
  resps_length : s.seq.mode = some .many → s.batch.resps.length = s.batch.idx

/-- Rules R38, R39, R162 to R166 and R172: the tuner's registers agree with its state. -/
structure TuneInv (s : State) : Prop where
  cands_le : s.tune.cands.length ≤ s.cfg.candMax
  idx_lt : s.tune.idx < Config.maxAttempts
  waiting_iff : s.tune.waiting = true ↔ s.tune.st = .searching
  owner_iff : s.tune.owner.isSome = true ↔ s.tune.st = .searching
  freq_none_iff : s.tune.freq = none ↔ s.tune.st = .tIdle
  freq_positive : ∀ f, s.tune.freq = some f → f.positive = true
  budget_eq : s.tune.st ≠ .tIdle → s.tune.budget = tuneBudget s.tune.cands
  idx_in_budget : s.tune.st = .searching → s.tune.idx < s.tune.budget
  attempts_eq : s.tune.st = .searching → s.tune.attemptsMade = s.tune.idx + 1
  attempts_le : s.tune.attemptsMade ≤ s.tune.budget

/-- A bus request that passes its presentation checks (rules R97 and R187). -/
def BusRequest.lawful (cfg : Config.Build) : BusRequest → Bool
  | .transact _ => true
  | .transactMany words => fits words cfg.batchMax
  | .regRead32 reg => regReadable reg

/-- A TUNE_CGEN that is not refused (rules R97 and R172). -/
def TuneRequest.lawful (cfg : Config.Build) (q : TuneRequest) : Bool :=
  q.freq.positive && fits q.cands cfg.candMax

/-- Rules R40, R41, R182 and R187: the waiting requests are sets in canonical form, of the block's clients, and each has
passed its checks. -/
structure PendingInv (s : State) : Prop where
  arb_wf : Pending.wf s.arbPending = true
  tune_wf : Pending.wf s.tunePending = true
  arb_client : ∀ p ∈ s.arbPending, clientExists s.cfg p.1 = true
  tune_client : ∀ p ∈ s.tunePending, clientExists s.cfg p.1 = true
  arb_lawful : ∀ p ∈ s.arbPending, p.2.lawful s.cfg = true
  tune_lawful : ∀ p ∈ s.tunePending, p.2.lawful s.cfg = true

/-- In how many places the block holds a request of `c`. -/
def heldCount (c : ClientId) (s : State) : Nat :=
  (if Pending.has c s.arbPending then 1 else 0) + (if Pending.has c s.tunePending then 1 else 0) +
    (if s.seq.owner = some c then 1 else 0) + (if s.tune.owner = some c then 1 else 0)

/-- Rule R43: a client has at most one request outstanding; and rule R220: only the block's clients have any. -/
structure ClientInv (s : State) : Prop where
  one_outstanding : ∀ c, heldCount c s ≤ 1
  owner_client : ∀ c, s.seq.owner = some c → clientExists s.cfg c = true
  tune_owner_client : ∀ c, s.tune.owner = some c → clientExists s.cfg c = true

/-- Rules R29, R239 and R240: a transfer is in flight in every POLL, and none is when SPI_MISO is to be read. -/
structure SlotInv (s : State) : Prop where
  poll_busy : s.seq.st = .poll → s.bridge.slot = .busy
  rdMiso_idle : s.seq.st = .rdMiso → s.bridge.slot = .idle

/-- The invariant of the block: what its rules say of every state between two steps. -/
structure Inv (s : State) : Prop where
  seqInv : SeqInv s
  pollInv : PollInv s
  batchInv : BatchInv s
  tuneInv : TuneInv s
  pendingInv : PendingInv s
  clientInv : ClientInv s
  slotInv : SlotInv s

/-- The launch premise `bridge_idle` (rule R235). -/
def BridgeIdle (s : State) : Prop := s.bridge.slot = .idle

/-- Hazard 2 (rule R239): outside POLL no transfer is in flight, unless a timeout has left one (rule R242). -/
def SingleSlot (s : State) : Prop :=
  s.bridge.slot = .busy → s.seq.st = .poll ∨ s.timeoutSeen = true

/-- Whether a turn asserts reset. -/
def Turn.isReset : Turn → Bool
  | .reset _ => true
  | _ => false

/-- Whether a turn is of the sequencer. -/
def Turn.isSeq : Turn → Bool
  | .seq _ _ => true
  | _ => false

/-- Whether the next step asserts reset. -/
def resetNext (s : State) : Bool :=
  match s.turns with
  | [] => false
  | t :: _ => t.isReset

/-- A step that ends in no fault. -/
def NoFault (o : Out) : Prop := ∀ f, o ≠ .fault f

/-- `seq` turns that answer the register reads of one transaction after another with the given draws. -/
def seqTurns (draws : List Word) : List Turn := draws.map (.seq 0)

/-- One transaction as the outside world sees it: the word presented, the draws of its two write steps (which nothing
reads), the STATUS words that show not-done, the one that shows done, and the SPI_MISO word. -/
structure Transfer where
  word : Word
  atMosi : Word
  atCtrl : Word
  notDone : List Word
  done : Word
  miso : Word
deriving DecidableEq, Repr

/-- Whether a command word is a Read (rule R82). -/
def isRead (w : Word) : Bool := !w.getLsbD 31

/-- The draws of the transaction's steps, in order (rule R139: `k` not-done reads and one that shows done). -/
def Transfer.draws (x : Transfer) : List Word :=
  [x.atMosi, x.atCtrl] ++ x.notDone ++ [x.done] ++ (if isRead x.word then [x.miso] else [])

/-- The register accesses of the transaction, granted to `c` (rules R114 and R115). -/
def Transfer.accesses (cfg : Config.Build) (c : ClientId) (x : Transfer) : List Access :=
  [⟨some c, .write, .spiMosi, pack (unpack x.word)⟩, ⟨some c, .write, .spiControl, cfg.ctrlStartWord⟩] ++
    x.notDone.map (fun w => ⟨some c, .read, .spiStatus, w⟩) ++ [⟨some c, .read, .spiStatus, x.done⟩] ++
    (if isRead x.word then [⟨some c, .read, .spiMiso, x.miso⟩] else [])

/-- The transaction's response (rule R90). -/
def Transfer.response (x : Transfer) : Response :=
  if isRead x.word then .value (x.miso.extractLsb' 0 16) else .noPayload

/-- The STATUS words show what the transfer says of them, within the poll limit (rules R92 and R136). -/
def Transfer.completes (cfg : Config.Build) (x : Transfer) : Prop :=
  (∀ w ∈ x.notDone, w &&& cfg.statusDoneMask = 0) ∧ x.done &&& cfg.statusDoneMask ≠ 0 ∧
    ∀ n, cfg.pollLimit = some n → x.notDone.length + 1 ≤ n

/-- The sequencer's registers at the start of a TRANSACT granted to `c` (rules R132 and R140). -/
def seqStarted (c : ClientId) (cmd : Command) : Seq :=
  { st := .wrMosi, cmd := some cmd, polls := 0, owner := some c, mode := some .single }

end Sys2Proof.Machine
end

