-- ==== Sys2Proof/Certificates/Slice0/Obligations.lean ====
section
/-! DEFINITION. The statements for the provers, from the numbered rules of the spec. Every next state is written out as
an update of the state before, so that what it does not name is unchanged. The model's own fields in them are not the
spec's: `turns` (assumption log 2), `busAnswer` (log 3), the words of `bridge` (log 4), `port` and `portClient` (log 5),
and the histories `bus`, `results` and `calls` (log 17). -/

open Sys2Proof Sys2Proof.Machine

/-! ### Encodings -/

/-- Words and descriptors written out from the spec's encodings decode to what they stand for. The last clause is the
model's own choice and no rule's: operands that are not those of the op code are refused by name (assumption
log 14). -/
def Obligations.WrittenOutEncodingsDecode : Prop :=
  decode (.cmd32 0x8020FFFD) = .ok (.spiWrite 0x0020 0xFFFD) ∧
  decode (.cmd32 0x002F1234) = .ok (.spiRead 0x002F) ∧
  decode (.req ⟨0x0, [.word 0x8000, .word 0x10000]⟩) = .ok (.encodeWrite 0x8000 0x10000) ∧
  decode (.req ⟨0x3, [.word 0x002F0000]⟩) = .ok (.transact 0x002F0000) ∧
  decode (.req ⟨0x5, [.freq ⟨true, 7⟩, .words [2, 4]]⟩) = .ok (.tuneCgen ⟨true, 7⟩ [2, 4]) ∧
  decode (.req ⟨0x6, [.reg 4]⟩) = .ok (.regRead32 4) ∧
  decode (.req ⟨0x9, []⟩) = .ok (.reserved 0x9) ∧
  decode (.req ⟨0x7, []⟩) = .error (.operandMismatch 0x7)

/-- Rules R86 and R87: packing and unpacking by place value, on every command and every word. -/
def Obligations.PackAndUnpackByPlaceValue : Prop :=
  (∀ (a : ChipAddr) (v : Half), (pack (.write a v)).toNat = 2 ^ 31 + a.toNat * 2 ^ 16 + v.toNat) ∧
  (∀ a : ChipAddr, (pack (.read a)).toNat = a.toNat * 2 ^ 16) ∧
  ∀ w : Word,
    unpack w =
      if 2 ^ 31 ≤ w.toNat then
        .write (BitVec.ofNat 15 (w.toNat / 2 ^ 16)) (BitVec.ofNat 16 w.toNat)
      else .read (BitVec.ofNat 15 (w.toNat / 2 ^ 16))

/-- Rule R88: the round-trip laws, and the source's property of ENCODE_WRITE followed by DECODE. -/
def Obligations.CommandRoundTripLaws : Prop :=
  (∀ c : Command, unpack (pack c) = c) ∧
  (∀ w : Word, pack (unpack w) = w ↔ (w.getLsbD 31 = true ∨ w.extractLsb' 0 16 = 0)) ∧
  (∀ w : Word, ¬(w.getLsbD 31 = true ∨ w.extractLsb' 0 16 = 0) → pack (unpack w) = w &&& 0xFFFF0000) ∧
  ∀ (addr value : Word) (s : State), addr.toNat ≤ 32767 → value.toNat ≤ 65535 →
    ∃ w : Word,
      exec (.encodeWrite addr value) s =
        .next { s with results := s.results ++ [⟨s.portClient, ⟨.ok, 0, .word w⟩⟩] } ∧
      exec (.decode w) s =
        .next { s with results := s.results ++
          [⟨s.portClient, ⟨.ok, 0, .fields 1 (addr.setWidth 15) (value.setWidth 16)⟩⟩] }

/-- Decoding what the encoder gives for a well-formed instruction gives the instruction back. -/
def Obligations.DecodeOfEncodeIsTheInstruction : Prop :=
  ∀ (b : Config.Build) (i : Instr), i.wellFormed b = true → decode (encode i) = .ok i

/-- The other direction: whatever descriptor decodes to an instruction, encoding that gives the op code back, and the
operands unless the op code is reserved; a command word comes back in its canonical form (rule R147). -/
def Obligations.EncodeOfDecodeIsCanonical : Prop :=
  (∀ (d : Descriptor) (i : Instr), decode (.req d) = .ok i →
    encode i = .req (if 8 ≤ d.op.toNat then ⟨d.op, []⟩ else d)) ∧
  ∀ (w : Word) (i : Instr), decode (.cmd32 w) = .ok i →
    encode i = .cmd32 (if w.getLsbD 31 then w else w &&& 0xFFFF0000)

/-- The opcode table does not overlap: a well-formed instruction's encoding shows its own row's fixed bits and no
other row's. -/
def Obligations.EncodingShowsExactlyItsOwnRow : Prop :=
  ∀ (b : Config.Build) (i : Instr), i.wellFormed b = true →
    ∀ (n : Nat) (r : OpcodeRow), opcodeRows[n]? = some r → (r.covers (encode i) = true ↔ n = i.rowIndex)

/-- Rule R98: responses as words cannot be confused. -/
def Obligations.ResponseWordsAreDistinct : Prop :=
  (∀ r r' : Response, responseWord r = responseWord r' → r = r') ∧
  (∀ v : Half, (responseWord (.value v)).toNat = v.toNat) ∧ (responseWord .noPayload).toNat = 2 ^ 31

/-! ### The codec, CLKSEL and the reserved op codes -/

/-- ENCODE_WRITE (rule R111): in range the word is the packed command, by place value; out of range both causes stand in
one info word, and nothing is truncated. -/
def Obligations.EncodeWriteResult : Prop :=
  ∀ (addr value : Word) (s : State),
    decodeRequest ⟨0x0, [.word addr, .word value]⟩ = .ok (.encodeWrite addr value) ∧
    exec (.encodeWrite addr value) s =
      .next { s with results := s.results ++
        [⟨s.portClient,
          if addr.toNat ≤ 0x7FFF ∧ value.toNat ≤ 0xFFFF then
            ⟨.ok, 0, .word (BitVec.ofNat 32 (2 ^ 31 + addr.toNat * 2 ^ 16 + value.toNat))⟩
          else
            ⟨.encodingViolation,
              BitVec.ofNat 32 ((if 0x7FFF < addr.toNat then 1 else 0) + (if 0xFFFF < value.toNat then 2 else 0)),
              .none⟩⟩] }

/-- ENCODE_READ (rule R112), in range and out of it. -/
def Obligations.EncodeReadResult : Prop :=
  ∀ (addr : Word) (s : State),
    decodeRequest ⟨0x1, [.word addr]⟩ = .ok (.encodeRead addr) ∧
    exec (.encodeRead addr) s =
      .next { s with results := s.results ++
        [⟨s.portClient,
          if addr.toNat ≤ 0x7FFF then ⟨.ok, 0, .word (BitVec.ofNat 32 (addr.toNat * 2 ^ 16))⟩
          else ⟨.encodingViolation, 1, .none⟩⟩] }

/-- DECODE (rule R113), total on words. -/
def Obligations.DecodeResult : Prop :=
  ∀ (word : Word) (s : State),
    decodeRequest ⟨0x2, [.word word]⟩ = .ok (.decode word) ∧
    exec (.decode word) s =
      .next { s with results := s.results ++
        [⟨s.portClient,
          ⟨.ok, 0,
            if 2 ^ 31 ≤ word.toNat then
              .fields 1 (BitVec.ofNat 15 (word.toNat / 2 ^ 16)) (BitVec.ofNat 16 word.toNat)
            else .fields 0 (BitVec.ofNat 15 (word.toNat / 2 ^ 16)) 0⟩⟩] }

/-- CLKSEL (rule R161): the fixed mapping, total, and the same mapping in the first call of a TUNE_CGEN (rules R162 and
R164). That this call is made in the step the TUNE_CGEN is presented is the model's reading (assumption log 8). -/
def Obligations.ClkselResult : Prop :=
  ∀ (div : Word) (s : State),
    let code : ClkCode := BitVec.ofNat 2
      (if div.toNat = 1 then 0 else if div.toNat = 2 then 1 else if div.toNat = 4 then 2 else 3)
    decodeRequest ⟨0x7, [.word div]⟩ = .ok (.clksel div) ∧
    exec (.clksel div) s = .next { s with results := s.results ++ [⟨s.portClient, ⟨.ok, 0, .code code⟩⟩] } ∧
    ∀ freq : Freq, freq.positive = true → s.tune.st ≠ .searching →
      ∃ t, exec (.tuneCgen freq [div]) s = .next t ∧ t.calls = s.calls ++ [⟨freq, code⟩]

/-- Rule R96: a request with a reserved op code, whatever stands beside the op code, ends in the step it is presented
with ILLEGAL_REQUEST and the op code as info; nothing but the result, the port and the turn changes. -/
def Obligations.ReservedOpIsIllegalRequest : Prop :=
  (∀ (op : BitVec 4) (s : State),
    exec (.reserved op) s =
      .next { s with results := s.results ++
        [⟨s.portClient, ⟨.illegalRequest, BitVec.ofNat 32 op.toNat, .none⟩⟩] }) ∧
  ∀ (s : State) (c : ClientId) (d : Descriptor) (pre post : List PortLine) (rest : List Turn),
    s.turns = .client c :: rest → s.port = pre ++ ⟨c, d⟩ :: post → (∀ l ∈ pre, l.client ≠ c) →
    c < s.cfg.numClients → outstanding c s = false → 8 ≤ d.op.toNat →
    step s =
      .next { s with turns := rest, port := pre ++ post, portClient := c,
                     results := s.results ++ [⟨c, ⟨.illegalRequest, BitVec.ofNat 32 d.op.toNat, .none⟩⟩] }

/-- Rules R117 and R188: the codec, CLKSEL and illegal requests read no register of the block: each has one result,
whatever the state, and changes nothing else. -/
def Obligations.CodecIsIndependentOfTheState : Prop :=
  ∀ i : Instr,
    (∃ a v, i = .encodeWrite a v) ∨ (∃ a, i = .encodeRead a) ∨ (∃ w, i = .decode w) ∨ (∃ d, i = .clksel d) ∨
      (∃ op, i = .reserved op) ∨ (∃ r, i = .regRead32 r ∧ r ≠ 4) →
    ∃ r : Result, ∀ s : State, exec i s = .next { s with results := s.results ++ [⟨s.portClient, r⟩] }

/-! ### Acceptance and grant -/

/-- Rule R182: TRANSACT, TRANSACT_MANY and REG_READ32 of CTRL_SCRATCH enter `arb.pending` in the step they are
presented, beside what waits there, and change nothing else. -/
def Obligations.BusRequestsWaitInArbPending : Prop :=
  ∀ (i : Instr) (q : BusRequest) (s : State),
    ((∃ w, i = .transact w ∧ q = .transact w) ∨
      (∃ ws, i = .transactMany ws ∧ q = .transactMany ws ∧ ws.length ≤ s.cfg.batchMax) ∨
      (i = .regRead32 4 ∧ q = .regRead32 4)) →
    ∃ p, exec i s = .next { s with arbPending := p } ∧ Pending.lookup s.portClient p = some q ∧
      ∀ c, c ≠ s.portClient → Pending.lookup c p = Pending.lookup c s.arbPending

/-- Rule R187: REG_READ32 of another register number is illegal, with the number in the info word. -/
def Obligations.RegReadOfOtherRegisterIsIllegal : Prop :=
  ∀ (reg : BitVec 3) (s : State), reg ≠ 4 →
    exec (.regRead32 reg) s =
      .next { s with results := s.results ++
        [⟨s.portClient, ⟨.illegalRequest, BitVec.ofNat 32 (0x106 + 16 * reg.toNat), .none⟩⟩] }

/-- Rules R97, R172 and R216: what a model refuses. Whether a frequency is positive is said by the predicate of the OPEN
type `Freq` (rule R10) at the value its name stands for (assumption log 7). -/
def Obligations.RequestsOutsideTheDomainAreRefused : Prop :=
  (∀ (ws : List Word) (s : State), s.cfg.batchMax < ws.length →
    exec (.transactMany ws) s = .refused .batchTooLong) ∧
  (∀ (f : Freq) (ds : List Word) (s : State), Config.freqType.positive (Config.freqType.value f) = false →
    exec (.tuneCgen f ds) s = .refused .freqNotPositive) ∧
  ∀ (f : Freq) (ds : List Word) (s : State), Config.freqType.positive (Config.freqType.value f) = true →
    s.cfg.candMax < ds.length → exec (.tuneCgen f ds) s = .refused .candsTooLong

/-- Rules R181, R182 and R183: when `Seq` is free, any client's waiting request may be granted; each kind of request
goes on as its rule says, a TRANSACT and a batch with no register access and a REG_READ32 with one; every other turn
of a free `Seq` does nothing. -/
def Obligations.GrantServesThePickedRequest : Prop :=
  ∀ (s : State) (c : ClientId) (draw : Word) (rest : List Turn),
    s.turns = .seq c draw :: rest → s.seq.st = .idle → s.seq.owner = none →
    (∀ w, Pending.lookup c s.arbPending = some (.transact w) →
      step s =
        .next { s with turns := rest, busAnswer := draw, arbPending := Pending.erase c s.arbPending,
                       seq := { st := .wrMosi, cmd := some (unpack w), polls := 0, owner := some c,
                                mode := some .single } }) ∧
    (∀ w ws, Pending.lookup c s.arbPending = some (.transactMany (w :: ws)) →
      step s =
        .next { s with turns := rest, busAnswer := draw, arbPending := Pending.erase c s.arbPending,
                       batch := { cmds := (w :: ws).map unpack, idx := 0, resps := [] },
                       seq := { st := .wrMosi, cmd := some (unpack w), polls := 0, owner := some c,
                                mode := some .many } }) ∧
    (∀ r, Pending.lookup c s.arbPending = some (.regRead32 r) →
      step s =
        .next { s with turns := rest, busAnswer := draw, arbPending := Pending.erase c s.arbPending,
                       seq := { s.seq with owner := none, mode := none },
                       bridge := { s.bridge with scratch := draw },
                       bus := s.bus ++ [⟨some c, .read, .ctrlScratch, draw⟩],
                       results := s.results ++ [⟨c, ⟨.ok, 0, .word draw⟩⟩] }) ∧
    (Pending.lookup c s.arbPending = none → step s = .next { s with turns := rest })

/-- Rule R144: the empty batch. -/
def Obligations.EmptyBatchEndsAtItsGrant : Prop :=
  ∀ (s : State) (c : ClientId) (draw : Word) (rest : List Turn),
    s.turns = .seq c draw :: rest → s.seq.st = .idle → s.seq.owner = none →
    Pending.lookup c s.arbPending = some (.transactMany []) →
    step s =
      .next { s with turns := rest, busAnswer := draw, arbPending := Pending.erase c s.arbPending,
                     batch := { cmds := [], idx := 0, resps := [] },
                     seq := { s.seq with owner := none, mode := none },
                     results := s.results ++ [⟨c, ⟨.ok, 0, .responses []⟩⟩] }

/-! ### The SPI commands, one register access a step -/

/-- Rule R133: step WR_MOSI of each SPI command. -/
def Obligations.MosiStepWritesThePackedCommand : Prop :=
  ∀ (cmd : Command) (s : State), s.seq.st = .wrMosi →
    exec (Instr.ofCommand cmd) s =
      .next { s with seq := { s.seq with st := .wrCtrl },
                     bridge := { s.bridge with mosi := pack cmd },
                     bus := s.bus ++ [⟨s.seq.owner, .write, .spiMosi, pack cmd⟩] }

/-- Rule R134: step WR_CTRL of each SPI command starts the transfer. -/
def Obligations.ControlStepStartsTheTransfer : Prop :=
  ∀ (cmd : Command) (s : State), s.seq.st = .wrCtrl →
    exec (Instr.ofCommand cmd) s =
      .next { s with seq := { s.seq with st := .poll },
                     bridge := { s.bridge with control := s.cfg.ctrlStartWord, slot := .busy },
                     bus := s.bus ++ [⟨s.seq.owner, .write, .spiControl, s.cfg.ctrlStartWord⟩] }

/-- Rule R136: a STATUS read that shows not-done below the limit is counted, and the sequencer polls again. -/
def Obligations.PollAgainBelowTheLimit : Prop :=
  ∀ (cmd : Command) (s : State), s.seq.st = .poll → s.busAnswer &&& s.cfg.statusDoneMask = 0 →
    s.cfg.pollLimit ≠ some (s.seq.polls + 1) →
    exec (Instr.ofCommand cmd) s =
      .next { s with seq := { s.seq with polls := s.seq.polls + 1 },
                     bridge := { s.bridge with status := s.busAnswer },
                     bus := s.bus ++ [⟨s.seq.owner, .read, .spiStatus, s.busAnswer⟩] }

/-- Rules R136, R138, R203 and R207: the `N`-th not-done read ends a TRANSACT with TRANSACTION_TIMEOUT. -/
def Obligations.PollTimeoutEndsTransact : Prop :=
  ∀ (cmd : Command) (s : State) (c : ClientId), s.seq.st = .poll →
    s.busAnswer &&& s.cfg.statusDoneMask = 0 → s.cfg.pollLimit = some (s.seq.polls + 1) →
    s.seq.mode = some .single → s.seq.owner = some c →
    exec (Instr.ofCommand cmd) s =
      .next { s with seq := { st := .idle, cmd := none, polls := s.seq.polls + 1, owner := none, mode := none },
                     timeoutSeen := true,
                     bridge := { s.bridge with status := s.busAnswer },
                     bus := s.bus ++ [⟨some c, .read, .spiStatus, s.busAnswer⟩],
                     results := s.results ++ [⟨c, ⟨.transactionTimeout, 0, .none⟩⟩] }

/-- Rule R143: the `N`-th not-done read aborts a batch with the index of the command in progress; the responses
collected stay where they are, undelivered, and no later command is started. That an index of 2^32 or more, which only a
build with `P_BATCH_MAX` above 2^32 has, is taken modulo 2^32 is the model's own (assumption log 15). -/
def Obligations.PollTimeoutAbortsBatch : Prop :=
  ∀ (cmd : Command) (s : State) (c : ClientId), s.seq.st = .poll →
    s.busAnswer &&& s.cfg.statusDoneMask = 0 → s.cfg.pollLimit = some (s.seq.polls + 1) →
    s.seq.mode = some .many → s.seq.owner = some c →
    exec (Instr.ofCommand cmd) s =
      .next { s with seq := { st := .idle, cmd := none, polls := s.seq.polls + 1, owner := none, mode := none },
                     timeoutSeen := true,
                     bridge := { s.bridge with status := s.busAnswer },
                     bus := s.bus ++ [⟨some c, .read, .spiStatus, s.busAnswer⟩],
                     results := s.results ++
                       [⟨c, ⟨.transactionTimeout, BitVec.ofNat 32 s.batch.idx, .none⟩⟩] }

/-- Rules R114, R135 and R138: the done read completes the SPI_WRITE of a TRANSACT with NoPayload, and SPI_MISO is not
read. That the response is NoPayload after a timeout, or in the first transaction without `bridge_idle`, is the model's
own: rules R242 and R235 leave it unconstrained there (assumption log 16). -/
def Obligations.DoneCompletesSpiWrite : Prop :=
  ∀ (a : ChipAddr) (v : Half) (s : State) (c : ClientId), s.seq.st = .poll →
    s.busAnswer &&& s.cfg.statusDoneMask ≠ 0 → s.seq.mode = some .single → s.seq.owner = some c →
    exec (.spiWrite a v) s =
      .next { s with seq := { st := .idle, cmd := none, polls := s.seq.polls + 1, owner := none, mode := none },
                     bridge := { s.bridge with status := s.busAnswer, slot := .idle },
                     bus := s.bus ++ [⟨some c, .read, .spiStatus, s.busAnswer⟩],
                     results := s.results ++ [⟨c, ⟨.ok, 0, .response .noPayload⟩⟩] }

/-- Rule R135: the done read of an SPI_READ leads to RD_MISO. -/
def Obligations.DoneLeadsSpiReadToMiso : Prop :=
  ∀ (a : ChipAddr) (s : State), s.seq.st = .poll → s.busAnswer &&& s.cfg.statusDoneMask ≠ 0 →
    exec (.spiRead a) s =
      .next { s with seq := { s.seq with st := .rdMiso, polls := s.seq.polls + 1 },
                     bridge := { s.bridge with status := s.busAnswer, slot := .idle },
                     bus := s.bus ++ [⟨s.seq.owner, .read, .spiStatus, s.busAnswer⟩] }

/-- Rules R115, R137 and R138: step RD_MISO completes the SPI_READ of a TRANSACT with the low 16 bits of the word
read. -/
def Obligations.MisoCompletesSpiRead : Prop :=
  ∀ (a : ChipAddr) (s : State) (c : ClientId), s.seq.st = .rdMiso → s.seq.mode = some .single →
    s.seq.owner = some c →
    exec (.spiRead a) s =
      .next { s with seq := { st := .idle, cmd := none, polls := s.seq.polls, owner := none, mode := none },
                     bridge := { s.bridge with miso := s.busAnswer },
                     bus := s.bus ++ [⟨some c, .read, .spiMiso, s.busAnswer⟩],
                     results := s.results ++
                       [⟨c, ⟨.ok, 0, .response (.value (BitVec.ofNat 16 s.busAnswer.toNat))⟩⟩] }

/-- Rule R142: a transaction of a batch that completes adds its response; after the last command the result is
delivered and the grant released, else the next command starts. The completing access is the done read of a Write or
the SPI_MISO read of a Read. That a Write's response is NoPayload after a timeout, or in the first transaction without
`bridge_idle`, is the model's own: rules R242 and R235 leave it unconstrained there (assumption log 16). -/
def Obligations.BatchGoesOnOrDelivers : Prop :=
  ∀ (cmd : Command) (s : State) (c : ClientId) (r : Response) (reg : RegId) (polls : Nat) (br : Bridge),
    s.seq.mode = some .many → s.seq.owner = some c →
    ((∃ a v, cmd = .write a v ∧ s.seq.st = .poll ∧ s.busAnswer &&& s.cfg.statusDoneMask ≠ 0 ∧ r = .noPayload ∧
        reg = .spiStatus ∧ polls = s.seq.polls + 1 ∧
        br = { s.bridge with status := s.busAnswer, slot := .idle }) ∨
      (∃ a, cmd = .read a ∧ s.seq.st = .rdMiso ∧ r = .value (BitVec.ofNat 16 s.busAnswer.toNat) ∧
        reg = .spiMiso ∧ polls = s.seq.polls ∧ br = { s.bridge with miso := s.busAnswer })) →
    (s.batch.idx + 1 = s.batch.cmds.length →
      exec (Instr.ofCommand cmd) s =
        .next { s with seq := { st := .idle, cmd := none, polls := polls, owner := none, mode := none },
                       batch := { s.batch with idx := s.batch.idx + 1, resps := s.batch.resps ++ [r] },
                       bridge := br,
                       bus := s.bus ++ [⟨some c, .read, reg, s.busAnswer⟩],
                       results := s.results ++ [⟨c, ⟨.ok, 0, .responses (s.batch.resps ++ [r])⟩⟩] }) ∧
    ∀ next, s.batch.cmds[s.batch.idx + 1]? = some next →
      exec (Instr.ofCommand cmd) s =
        .next { s with seq := { st := .wrMosi, cmd := some next, polls := 0, owner := some c,
                                mode := some .many },
                       batch := { s.batch with idx := s.batch.idx + 1, resps := s.batch.resps ++ [r] },
                       bridge := br,
                       bus := s.bus ++ [⟨some c, .read, reg, s.busAnswer⟩] }

/-! ### Whole transactions and batches -/

/-- Rule R139, for a TRANSACT and for a command of a batch, whose next steps are turns of `Seq`: with `k` not-done reads
before the done read a Write makes `2 + (k+1)` accesses and a Read `3 + (k+1)`, of which `k+1` are STATUS reads; with a
limit of `N` and `N` not-done reads the transaction makes `2 + N` accesses, the last a STATUS read, and fails. What
follows is that of the mode: the result and the release, or the next command (rules R138, R142 and R143). The model's
own are the NoPayload of a Write after a timeout or in the first transaction without `bridge_idle`, which rules R242
and R235 leave unconstrained (assumption log 16), and the info of a batch's timeout as `batch.idx` modulo 2^32
(assumption log 15). -/
def Obligations.TransactionAccessCounts : Prop :=
  ∀ (s : State) (c : ClientId) (m : SeqMode) (x : Transfer) (rest : List Turn),
    s.seq = { st := .wrMosi, cmd := some (unpack x.word), polls := 0, owner := some c, mode := some m } →
    m = .single ∨ (m = .many ∧ s.batch.idx < s.batch.cmds.length) →
    (x.completes s.cfg → s.turns = seqTurns x.draws ++ rest →
      ∃ t, Host.Core.run Sys2Proof.core x.draws.length s = .next t ∧
        t.bus = s.bus ++ x.accesses s.cfg c ∧
        t.bus.length = s.bus.length + (if isRead x.word then 3 else 2) + (x.notDone.length + 1) ∧
        (t.bus.drop s.bus.length).countP (fun a => a.reg == .spiStatus) = x.notDone.length + 1 ∧
        t.turns = rest ∧
        (m = .single →
          t.batch = s.batch ∧ t.results = s.results ++ [⟨c, ⟨.ok, 0, .response x.response⟩⟩] ∧
          t.seq = { st := .idle, cmd := none, polls := x.notDone.length + 1, owner := none, mode := none }) ∧
        (m = .many →
          t.batch = { s.batch with idx := s.batch.idx + 1, resps := s.batch.resps ++ [x.response] } ∧
          (s.batch.idx + 1 = s.batch.cmds.length →
            t.results = s.results ++ [⟨c, ⟨.ok, 0, .responses (s.batch.resps ++ [x.response])⟩⟩] ∧
            t.seq = { st := .idle, cmd := none, polls := x.notDone.length + 1, owner := none, mode := none }) ∧
          ∀ next, s.batch.cmds[s.batch.idx + 1]? = some next →
            t.results = s.results ∧
            t.seq = { st := .wrMosi, cmd := some next, polls := 0, owner := some c, mode := some .many })) ∧
    ((∀ w ∈ x.notDone, w &&& s.cfg.statusDoneMask = 0) → s.cfg.pollLimit = some x.notDone.length →
      s.turns = seqTurns ([x.atMosi, x.atCtrl] ++ x.notDone) ++ rest →
      ∃ t, Host.Core.run Sys2Proof.core (2 + x.notDone.length) s = .next t ∧
        t.bus = s.bus ++ [⟨some c, .write, .spiMosi, pack (unpack x.word)⟩,
            ⟨some c, .write, .spiControl, s.cfg.ctrlStartWord⟩] ++
          x.notDone.map (fun w => ⟨some c, .read, .spiStatus, w⟩) ∧
        t.bus.length = s.bus.length + (2 + x.notDone.length) ∧
        t.results = s.results ++
          [⟨c, ⟨.transactionTimeout, if m = .many then BitVec.ofNat 32 s.batch.idx else 0, .none⟩⟩] ∧
        t.timeoutSeen = true ∧ t.batch = s.batch ∧
        t.seq = { st := .idle, cmd := none, polls := x.notDone.length, owner := none, mode := none } ∧
        t.turns = rest)

/-- TRANSACT, from its acceptance to its result (rules R140, R147, R181 and R182), for a bridge that answers the
transaction's STATUS reads within the poll limit: the request is accepted, granted when its turn comes, makes the
accesses of its one transaction, and its client gets the response; whatever else waits or is being tuned is left as
it was. That a Write's response is NoPayload after a timeout, or in the first transaction without `bridge_idle`, is the
model's own: rules R242 and R235 leave it unconstrained there (assumption log 16). -/
def Obligations.TransactRunsToItsResult : Prop :=
  ∀ (s : State) (x : Transfer) (atGrant : Word) (rest : List Turn),
    outstanding s.portClient s = false → s.seq.st = .idle → s.seq.owner = none →
    x.completes s.cfg → s.turns = .seq s.portClient atGrant :: seqTurns x.draws ++ rest →
    ∃ u t, exec (.transact x.word) s = .next u ∧ Host.Core.run Sys2Proof.core (1 + x.draws.length) u = .next t ∧
      t.bus = s.bus ++ x.accesses s.cfg s.portClient ∧
      t.results = s.results ++ [⟨s.portClient, ⟨.ok, 0, .response x.response⟩⟩] ∧
      t.seq.st = .idle ∧ t.seq.owner = none ∧ t.turns = rest ∧ t.port = s.port ∧
      t.arbPending = s.arbPending ∧ t.tunePending = s.tunePending ∧ t.batch = s.batch ∧ t.tune = s.tune ∧
      t.timeoutSeen = s.timeoutSeen ∧ t.calls = s.calls

/-- REG_READ32 of CTRL_SCRATCH, from its acceptance to its result (rules R182 and R186): one access, at the grant, and
its client gets the word the bridge answered. -/
def Obligations.RegReadRunsToItsResult : Prop :=
  ∀ (s : State) (draw : Word) (rest : List Turn),
    outstanding s.portClient s = false → s.seq.st = .idle → s.seq.owner = none →
    s.turns = .seq s.portClient draw :: rest →
    ∃ u, exec (.regRead32 4) s = .next u ∧
      step u =
        .next { s with turns := rest, busAnswer := draw, seq := { s.seq with owner := none, mode := none },
                       bridge := { s.bridge with scratch := draw },
                       bus := s.bus ++ [⟨some s.portClient, .read, .ctrlScratch, draw⟩],
                       results := s.results ++ [⟨s.portClient, ⟨.ok, 0, .word draw⟩⟩] }

/-- Rule R145: a TRANSACT_MANY of `n` words that ends OK, from its acceptance to its result, makes the `n` transactions
of its words in list order, one after the other, and delivers their `n` responses in the same order. That a Write's
response is NoPayload after a timeout, or in the first transaction without `bridge_idle`, is the model's own: rules R242
and R235 leave it unconstrained there (assumption log 16). -/
def Obligations.BatchRunsItsTransactionsInOrder : Prop :=
  ∀ (s : State) (xs : List Transfer) (atGrant : Word) (rest : List Turn),
    outstanding s.portClient s = false → s.seq.st = .idle → s.seq.owner = none →
    xs.length ≤ s.cfg.batchMax → (∀ x ∈ xs, x.completes s.cfg) →
    s.turns = .seq s.portClient atGrant :: seqTurns (xs.flatMap Transfer.draws) ++ rest →
    ∃ u t, exec (.transactMany (xs.map (·.word))) s = .next u ∧
      Host.Core.run Sys2Proof.core (1 + (xs.flatMap Transfer.draws).length) u = .next t ∧
      t.bus = s.bus ++ xs.flatMap (Transfer.accesses s.cfg s.portClient) ∧
      t.results = s.results ++ [⟨s.portClient, ⟨.ok, 0, .responses (xs.map Transfer.response)⟩⟩] ∧
      (xs.map Transfer.response).length = xs.length ∧
      t.seq.st = .idle ∧ t.seq.owner = none ∧ t.turns = rest ∧ t.arbPending = s.arbPending ∧
      t.timeoutSeen = s.timeoutSeen

/-- Rules R136 and R215: with no poll limit, however many not-done answers come, the sequencer stays in POLL with the
grant held. -/
def Obligations.UnboundedPollHangsOnAStuckBridge : Prop :=
  ∀ (s : State) (cmd : Command) (c : ClientId) (notDone : List Word) (rest : List Turn),
    s.cfg.pollLimit = none → s.seq.st = .poll → s.seq.cmd = some cmd → s.seq.owner = some c →
    (∀ w ∈ notDone, w &&& s.cfg.statusDoneMask = 0) → s.turns = seqTurns notDone ++ rest →
    ∃ t, Host.Core.run Sys2Proof.core notDone.length s = .next t ∧ t.seq.st = .poll ∧ t.seq.owner = some c ∧
      t.seq.polls = s.seq.polls + notDone.length ∧
      t.bus = s.bus ++ notDone.map (fun w => ⟨some c, .read, .spiStatus, w⟩) ∧ t.results = s.results ∧
      t.arbPending = s.arbPending ∧ t.turns = rest

/-- Rule R72: with a poll limit of `n` every transaction, of a TRANSACT or of a batch, ends whatever the bridge answers,
within `n + 3` steps of `Seq` and with at most `n` STATUS reads in all: with the grant released and its result, or, in
a batch, with the next command started. -/
def Obligations.BoundedPollEndsEveryTransaction : Prop :=
  ∀ (s : State) (n : Nat) (c : ClientId) (draws : List Word), Inv s → s.cfg.pollLimit = some n →
    s.seq.owner = some c → s.turns = seqTurns draws → n + 3 ≤ draws.length →
    ∃ k t, k ≤ n + 3 ∧ Host.Core.run Sys2Proof.core k s = .next t ∧
      s.seq.polls + (t.bus.drop s.bus.length).countP (fun a => a.reg == .spiStatus) ≤ n ∧
      ((t.seq.owner = none ∧ ∃ r, t.results = s.results ++ [⟨c, r⟩]) ∨
        (s.seq.mode = some .many ∧ t.seq.owner = some c ∧ t.seq.mode = some .many ∧ t.seq.st = .wrMosi ∧
          t.batch.idx = s.batch.idx + 1 ∧ t.results = s.results))

/-! ### The tuner -/

/-- Rules R162 and R163: a TUNE_CGEN with no candidates, presented while none is in progress (assumption log 8), ends at
once with TUNE_FAILURE and info 0. -/
def Obligations.TuneWithoutCandidatesFailsAtOnce : Prop :=
  ∀ (freq : Freq) (s : State), freq.positive = true → s.tune.st ≠ .searching →
    exec (.tuneCgen freq []) s =
      .next { s with tune := { s.tune with st := .exhausted, owner := none, freq := some freq, cands := [],
                                           budget := 0, idx := 0, attemptsMade := 0 },
                     results := s.results ++ [⟨s.portClient, ⟨.tuneFailure, 0, .none⟩⟩] }

/-- Rules R162 to R164: a TUNE_CGEN presented while none is in progress starts in that step (the model's reading,
assumption log 8) and makes attempt 0 with the code of its first candidate; its budget is the shorter of 40 and its
list. -/
def Obligations.TuneStartMakesAttemptZero : Prop :=
  ∀ (freq : Freq) (div : Word) (divs : List Word) (s : State), freq.positive = true →
    (div :: divs).length ≤ s.cfg.candMax → s.tune.st ≠ .searching →
    exec (.tuneCgen freq (div :: divs)) s =
      .next { s with tune := { st := .searching, idx := 0, owner := some s.portClient, freq := some freq,
                               cands := div :: divs, budget := min 40 (div :: divs).length, waiting := true,
                               attemptsMade := 1 },
                     calls := s.calls ++
                       [⟨freq, if div = 1 then 0 else if div = 2 then 1 else if div = 4 then 2 else 3⟩] }

/-- Rules R41 and R162: a TUNE_CGEN presented while another is in progress waits in `tune.pending`. -/
def Obligations.TuneWaitsWhileAnotherRuns : Prop :=
  ∀ (freq : Freq) (cands : List Word) (s : State), freq.positive = true → cands.length ≤ s.cfg.candMax →
    s.tune.st = .searching →
    ∃ p, exec (.tuneCgen freq cands) s = .next { s with tunePending := p } ∧
      Pending.lookup s.portClient p = some ⟨freq, cands⟩ ∧
      ∀ c, c ≠ s.portClient → Pending.lookup c p = Pending.lookup c s.tunePending

/-- Rule R162: when the tuner is free, any waiting TUNE_CGEN may start, and does what one does that starts at its
presentation: with no candidates it ends at once with TUNE_FAILURE and info 0, else it makes attempt 0. -/
def Obligations.WaitingTuneStarts : Prop :=
  ∀ (s : State) (c : ClientId) (freq : Freq) (cands : List Word) (rest : List Turn),
    s.turns = .tuner c :: rest → s.tune.st ≠ .searching →
    Pending.lookup c s.tunePending = some ⟨freq, cands⟩ →
    (cands = [] →
      step s =
        .next { s with turns := rest, tunePending := Pending.erase c s.tunePending,
                       tune := { s.tune with st := .exhausted, owner := none, freq := some freq, cands := [],
                                             budget := 0, idx := 0, attemptsMade := 0 },
                       results := s.results ++ [⟨c, ⟨.tuneFailure, 0, .none⟩⟩] }) ∧
    ∀ div divs, cands = div :: divs →
      step s =
        .next { s with turns := rest, tunePending := Pending.erase c s.tunePending,
                       tune := { st := .searching, idx := 0, owner := some c, freq := some freq,
                                 cands := div :: divs, budget := min 40 (div :: divs).length, waiting := true,
                                 attemptsMade := 1 },
                       calls := s.calls ++
                         [⟨freq, if div = 1 then 0 else if div = 2 then 1 else if div = 4 then 2 else 3⟩] }

/-- Rule R165: an attempt that succeeds ends the request with OK and the number of attempts made; no further call is
made. That the library answers only when it waits for no request of its own is the model's reading of rules R43 and
R208 (assumption log 9); its turn in the other case is in `NoEnabledStepKeepsTheState`. The info word is the number modulo
2^32 (assumption log 15), which is the number in every state of the invariant. -/
def Obligations.AttemptSuccessEndsTheTune : Prop :=
  ∀ (s : State) (c : ClientId) (rest : List Turn), s.turns = .rflib .ok :: rest → s.tune.waiting = true →
    rflibBusy s = false → s.tune.owner = some c →
    step s =
      .next { s with turns := rest,
                     tune := { s.tune with waiting := false, st := .succeeded, owner := none },
                     results := s.results ++ [⟨c, ⟨.ok, BitVec.ofNat 32 s.tune.attemptsMade, .none⟩⟩] }

/-- Rule R166: an attempt that fails is followed by the next candidate's, with no result, and ends the request with
TUNE_FAILURE when the budget is spent. That the library answers only when it waits for no request of its own is the
model's reading of rules R43 and R208 (assumption log 9); its turn in the other case is in
`NoEnabledStepKeepsTheState`. The info word is the budget modulo 2^32 (assumption log 15), which is the budget in every
state of the invariant. -/
def Obligations.AttemptFailureTriesTheNextCandidate : Prop :=
  ∀ (s : State) (c : ClientId) (rest : List Turn), s.turns = .rflib .err :: rest → s.tune.waiting = true →
    rflibBusy s = false → s.tune.owner = some c →
    (s.tune.idx + 1 = s.tune.budget →
      step s =
        .next { s with turns := rest,
                       tune := { s.tune with waiting := false, st := .exhausted, owner := none },
                       results := s.results ++
                         [⟨c, ⟨.tuneFailure, BitVec.ofNat 32 s.tune.budget, .none⟩⟩] }) ∧
    ∀ div freq, s.tune.idx + 1 ≠ s.tune.budget → s.tune.cands[s.tune.idx + 1]? = some div →
      s.tune.freq = some freq →
      step s =
        .next { s with turns := rest,
                       tune := { s.tune with waiting := true, idx := s.tune.idx + 1,
                                             attemptsMade := s.tune.idx + 2 },
                       calls := s.calls ++
                         [⟨freq, if div = 1 then 0 else if div = 2 then 1 else if div = 4 then 2 else 3⟩] }

/-- Rule R167: the attempt laws, of a TUNE_CGEN that starts in the step it is presented (the model's reading, assumption
log 8), to its result, with a library that waits for no request of its own (assumption log 9): with `j` failures and
then a success within the budget it makes `j+1` tune calls and ends OK; with nothing but failures it makes as many
calls as its budget and ends in TUNE_FAILURE, with no call outstanding. -/
def Obligations.AttemptLaws : Prop :=
  ∀ (s : State) (freq : Freq) (cands : List Word) (rest : List Turn),
    s.tune.st ≠ .searching → freq.positive = true → cands.length ≤ s.cfg.candMax →
    rflibBusy s = false →
    (∀ j, j < min 40 cands.length → s.turns = List.replicate j (.rflib .err) ++ .rflib .ok :: rest →
      ∃ u t, exec (.tuneCgen freq cands) s = .next u ∧ Host.Core.run Sys2Proof.core (j + 1) u = .next t ∧
        t.calls = s.calls ++ (cands.take (j + 1)).map (fun d => ⟨freq, clkCode d⟩) ∧
        t.results = s.results ++ [⟨s.portClient, ⟨.ok, BitVec.ofNat 32 (j + 1), .none⟩⟩] ∧
        t.tune.st = .succeeded ∧ t.tune.attemptsMade = j + 1 ∧ t.tune.waiting = false ∧ t.tune.owner = none ∧
        t.bus = s.bus ∧ t.turns = rest) ∧
    (1 ≤ cands.length → s.turns = List.replicate (min 40 cands.length) (.rflib .err) ++ rest →
      ∃ u t, exec (.tuneCgen freq cands) s = .next u ∧
        Host.Core.run Sys2Proof.core (min 40 cands.length) u = .next t ∧
        t.calls = s.calls ++ (cands.take (min 40 cands.length)).map (fun d => ⟨freq, clkCode d⟩) ∧
        t.results = s.results ++
          [⟨s.portClient, ⟨.tuneFailure, BitVec.ofNat 32 (min 40 cands.length), .none⟩⟩] ∧
        t.tune.st = .exhausted ∧ t.tune.attemptsMade = min 40 cands.length ∧ t.tune.waiting = false ∧
        t.tune.owner = none ∧ t.bus = s.bus ∧ t.turns = rest)

/-- Rule R168: no step of the tuner or answer of the RF control library touches the sequencer, the arbiter, the batch
or the bus. -/
def Obligations.TunerHoldsNoGrant : Prop :=
  ∀ (s t : State) (turn : Turn) (rest : List Turn), s.turns = turn :: rest →
    ((∃ c, turn = .tuner c) ∨ ∃ a, turn = .rflib a) → step s = .next t →
    t.seq = s.seq ∧ t.batch = s.batch ∧ t.bus = s.bus ∧ t.bridge = s.bridge ∧ t.arbPending = s.arbPending ∧
      t.timeoutSeen = s.timeoutSeen

/-- Rule R244: once the RF control library waits for a TUNE_CGEN of its own while its answer is waited for, no step but
reset moves the tuner or lifts the wait (that the library's answer is not enabled there is assumption log 9). -/
def Obligations.ReentrantTuneIsStuckUntilReset : Prop :=
  ∀ s t : State, Inv s → s.tune.waiting = true → Pending.has s.cfg.rflibClient s.tunePending = true →
    resetNext s = false → step s = .next t →
    t.tune = s.tune ∧ Pending.has t.cfg.rflibClient t.tunePending = true

/-! ### The whole machine -/

/-- A client's turn runs the request its first line decodes to, with that line taken from the port (the port is the
model's, assumption log 5). -/
def Obligations.ClientTurnRunsTheDecodedRequest : Prop :=
  ∀ (s : State) (c : ClientId) (d : Descriptor) (i : Instr) (pre post : List PortLine) (rest : List Turn),
    s.turns = .client c :: rest → c < s.cfg.numClients → outstanding c s = false →
    s.port = pre ++ ⟨c, d⟩ :: post → (∀ l ∈ pre, l.client ≠ c) → decode (.req d) = .ok i →
    step s = exec i { s with turns := rest, port := pre ++ post, portClient := c }

/-- A turn of `Seq` in a transaction runs the SPI command of `seq.cmd`, which is what its packed word decodes to, with
the turn's draw as the bridge's answer (assumption log 3). -/
def Obligations.SeqTurnRunsTheCommand : Prop :=
  ∀ (s : State) (pick : ClientId) (draw : Word) (cmd : Command) (i : Instr) (rest : List Turn),
    s.turns = .seq pick draw :: rest → s.seq.st ≠ .idle → s.seq.cmd = some cmd →
    decode (.cmd32 (pack cmd)) = .ok i →
    step s = exec i { s with turns := rest, busAnswer := draw }

/-- Rules R43, R162 and R222: no step is made by a client whose request is outstanding or that has none to present, or by
a tuner with a TUNE_CGEN in progress or none waiting; and with no turn left the state is kept. The rest is the model's
reading: that an RF control library makes none with a request of its own waiting or granted (of rules R43, R208 and
R244, assumption log 9) or with no call to answer (assumption log 10), that the bridge's own turn is none in POLL, where
its step is its answer to the read (assumption log 4), and how 'no step' is said (assumption log 2). -/
def Obligations.NoEnabledStepKeepsTheState : Prop :=
  (∀ s : State, s.turns = [] → step s = .next s) ∧
  (∀ (s : State) (c : ClientId) (rest : List Turn), s.turns = .client c :: rest → c < s.cfg.numClients →
    (outstanding c s = true ∨ ∀ l ∈ s.port, l.client ≠ c) → step s = .next { s with turns := rest }) ∧
  (∀ (s : State) (answer : TuneResult) (rest : List Turn), s.turns = .rflib answer :: rest →
    (s.tune.waiting = false ∨ Pending.has s.cfg.rflibClient s.arbPending = true ∨
      Pending.has s.cfg.rflibClient s.tunePending = true ∨ s.seq.owner = some s.cfg.rflibClient) →
    step s = .next { s with turns := rest }) ∧
  (∀ (s : State) (c : ClientId) (rest : List Turn), s.turns = .tuner c :: rest →
    (s.tune.st = .searching ∨ Pending.lookup c s.tunePending = none) → step s = .next { s with turns := rest }) ∧
  ∀ (s : State) (rest : List Turn), s.turns = .bridge :: rest → s.seq.st = .poll →
    step s = .next { s with turns := rest }

/-- Rules R232 and R233: what asserting reset leaves, from any state, and what the machine holds at power-up. The words
of the external registers stay as they are, and the bridge's slot is the draw that the turn carries (rules R29 and
R235; assumption log 4). That asserting reset is one step, and that the model's histories stay, are the model's own
(rule R231; assumption logs 10 and 17); the parameters stay by rule R237. -/
def Obligations.ResetValues : Prop :=
  let isReset (s : State) : Prop :=
    s.seq.st = .idle ∧ s.seq.cmd = none ∧ s.seq.polls = 0 ∧ s.seq.owner = none ∧ s.seq.mode = none ∧
    s.batch.cmds = [] ∧ s.batch.idx = 0 ∧ s.batch.resps = [] ∧ s.timeoutSeen = false ∧
    s.tune.st = .tIdle ∧ s.tune.idx = 0 ∧ s.tune.owner = none ∧ s.tune.freq = none ∧ s.tune.cands = [] ∧
    s.tune.budget = 0 ∧ s.tune.waiting = false ∧ s.tune.attemptsMade = 0 ∧ s.arbPending = [] ∧
    s.tunePending = [] ∧
    stsBusy s = false ∧ stsTimeoutSeen s = false ∧ stsTuneState s = .tIdle ∧ stsAttemptsMade s = 0
  isReset State.reset ∧
  ∀ (s : State) (slot : BridgeSlot) (rest : List Turn), s.turns = .reset slot :: rest →
    ∃ t, step s = .next t ∧ isReset t ∧ t.bridge = { s.bridge with slot := slot } ∧ t.bus = s.bus ∧
      t.results = s.results ∧ t.calls = s.calls ∧ t.cfg = s.cfg ∧ t.turns = rest

/-- The invariant of the block holds at reset, at power-up and after every reset turn; and under the launch premise
`bridge_idle` (rule R235) so does the single-slot discipline of rule R239. -/
def Obligations.ResetMeetsTheInvariant : Prop :=
  Inv State.reset ∧
  (∀ (cfg : Config.Build) (bridge : Bridge),
    Inv (State.resetWith cfg bridge) ∧
      (BridgeIdle (State.resetWith cfg bridge) → SingleSlot (State.resetWith cfg bridge))) ∧
  ∀ (s : State) (slot : BridgeSlot) (rest : List Turn), s.turns = .reset slot :: rest →
    ∃ t, step s = .next t ∧ Inv t ∧ (slot = .idle → BridgeIdle t ∧ SingleSlot t)

/-- The invariant of the block is kept by every step, from every state that meets it. -/
def Obligations.EveryStepKeepsTheInvariant : Prop :=
  ∀ s t : State, Inv s → step s = .next t → Inv t

/-- Rule R50: from a state that meets the invariant no step reads state that holds no value, so none faults. -/
def Obligations.NoStepFaultsFromTheInvariant : Prop :=
  ∀ s : State, Inv s → NoFault (step s)

/-- Rules R239 and R242: the single-slot discipline holds until a reset falls into a transaction: no step but reset
breaks it, and with no timeout seen SPI_MOSI and SPI_CONTROL are written only when no transfer is in flight. -/
def Obligations.SingleSlotIsKept : Prop :=
  ∀ s t : State, Inv s → SingleSlot s → resetNext s = false → step s = .next t →
    SingleSlot t ∧
    ∀ a, t.bus = s.bus ++ [a] → a.kind = .write → s.timeoutSeen = false → s.bridge.slot = .idle

/-- Rule R8: one step makes at most one register access, and only `Seq` makes any. -/
def Obligations.OneAccessPerStepAndOnlySeq : Prop :=
  ∀ s t : State, step s = .next t →
    t.bus = s.bus ∨
    ∃ a pick draw rest, t.bus = s.bus ++ [a] ∧ s.turns = .seq pick draw :: rest

/-- Rule R27: which registers are written and which are read, and that a write of SPI_CONTROL is always of the start
word. -/
def Obligations.AccessRights : Prop :=
  ∀ (s t : State) (a : Access), step s = .next t → t.bus = s.bus ++ [a] →
    (a.kind = .write → a.reg = .spiMosi ∨ (a.reg = .spiControl ∧ a.word = s.cfg.ctrlStartWord)) ∧
    (a.kind = .read → a.reg = .spiStatus ∨ a.reg = .spiMiso ∨ a.reg = .ctrlScratch)

/-- Rule R184: while a client holds the grant, every access is made for it, and no other client is granted before it is
released. -/
def Obligations.GrantIsExclusive : Prop :=
  ∀ (s t : State) (c : ClientId), Inv s → s.seq.owner = some c → step s = .next t →
    (t.bus = s.bus ∨ ∃ k r w, t.bus = s.bus ++ [⟨some c, k, r, w⟩]) ∧
    (t.seq.owner = some c ∨ t.seq.owner = none)

/-- Rule R185: the grant is released in the step that delivers the granted client's result, and in no other step but
reset. -/
def Obligations.ReleaseComesWithTheResult : Prop :=
  ∀ (s t : State) (c : ClientId), Inv s → s.seq.owner = some c → resetNext s = false → step s = .next t →
    (t.seq.owner ≠ some c ↔ ∃ r, t.results = s.results ++ [⟨c, r⟩]) ∧
    (t.seq.owner ≠ some c → t.seq.owner = none ∧ t.seq.mode = none)

/-- Rule R36: the timeout flag is 0 at reset, set by every TRANSACTION_TIMEOUT, and cleared by nothing but reset. -/
def Obligations.TimeoutFlagIsSticky : Prop :=
  State.reset.timeoutSeen = false ∧
  ∀ s t : State, step s = .next t →
    (∀ c info d, t.results = s.results ++ [⟨c, ⟨.transactionTimeout, info, d⟩⟩] → t.timeoutSeen = true) ∧
    (resetNext s = false → s.timeoutSeen = true → t.timeoutSeen = true) ∧
    (resetNext s = true → t.timeoutSeen = false)

/-- Rules R43 and R185: one step delivers at most one result; and what one step delivers with a code other than OK
carries no data. -/
def Obligations.AtMostOneResultPerStep : Prop :=
  ∀ s t : State, step s = .next t →
    t.results = s.results ∨
    ∃ c r, t.results = s.results ++ [⟨c, r⟩] ∧ (r.code ≠ .ok → r.data = .none)

/-- Rule R237: no step changes a parameter, and the histories only grow. -/
def Obligations.ParametersNeverChange : Prop :=
  ∀ s t : State, step s = .next t →
    t.cfg = s.cfg ∧ s.bus <+: t.bus ∧ s.results <+: t.results ∧ s.calls <+: t.calls

/-! ### The assembler -/

/-- Rule R102: the assembler refuses a command operand exactly when a field is out of range, and the word of one it
takes decodes to the numbers written. -/
def Obligations.AssemblerRefusesOutOfRange : Prop :=
  (∀ a v : Nat, (AsmCmd.wr a v).assemble = none ↔ (0x7FFF < a ∨ 0xFFFF < v)) ∧
  (∀ a : Nat, (AsmCmd.rd a).assemble = none ↔ 0x7FFF < a) ∧
  (∀ (a v : Nat) (w : Word), (AsmCmd.wr a v).assemble = some w → w.toNat = 2 ^ 31 + a * 2 ^ 16 + v) ∧
  (∀ (a : Nat) (w : Word), (AsmCmd.rd a).assemble = some w → w.toNat = a * 2 ^ 16) ∧
  ∀ w : Word, (AsmCmd.word w).assemble = some w

/-- Rule R103: the pseudo-instructions' expansions. -/
def Obligations.PseudoInstructionExpansions : Prop :=
  (∀ a v : Nat, (AsmLine.poke a v).assemble = (AsmLine.tx (.wr a v)).assemble) ∧
  (∀ a : Nat, (AsmLine.peek a).assemble = (AsmLine.tx (.rd a)).assemble) ∧
  AsmLine.scratch.assemble = some (.regRead32 4) ∧
  ∀ (f : Freq) (d : Word), (AsmLine.tuneFixed f d).assemble = some (.tuneCgen f (List.replicate 40 d))

/-! ### Interleavings -/

/-- Rules R184 and R212: no turn of another agent but reset touches the sequencer, the batch, the bus or the timeout
flag, and none but the bridge's the bridge, whose own turn ends a transfer the block no longer follows (the model's
reading of rules R235 and R242, assumption log 4). So under every interleaving the turns of `Seq` up to the end of the
request in progress do what they do with no other turn between them, and deliver the same results. -/
def Obligations.OtherAgentsLeaveATransactionAlone : Prop :=
  (∀ (s t : State) (turn : Turn) (rest : List Turn), s.turns = turn :: rest → turn.isReset = false →
    turn.isSeq = false → step s = .next t →
    t.seq = s.seq ∧ t.batch = s.batch ∧ t.bus = s.bus ∧ t.timeoutSeen = s.timeoutSeen ∧ t.cfg = s.cfg ∧
      t.turns = rest ∧ (turn ≠ .bridge → t.bridge = s.bridge) ∧
      (turn = .bridge →
        t = { s with turns := rest,
                     bridge := { s.bridge with slot := if s.seq.st = .poll then s.bridge.slot else .idle } })) ∧
  ∀ (s t u : State) (turns rest : List Turn), s.turns = turns ++ rest → (∀ x ∈ turns, x.isReset = false) →
    let alone : State := { s with turns := turns.filter Turn.isSeq }
    (∀ k v, k < (turns.filter Turn.isSeq).length → Host.Core.run Sys2Proof.core k alone = .next v →
      v.seq.st ≠ .idle) →
    Host.Core.run Sys2Proof.core turns.length s = .next t →
    Host.Core.run Sys2Proof.core (turns.filter Turn.isSeq).length alone = .next u →
    t.seq = u.seq ∧ t.batch = u.batch ∧ t.bus = u.bus ∧ t.timeoutSeen = u.timeoutSeen ∧
      ∃ r, u.results = s.results ++ r ∧ r.Sublist (t.results.drop s.results.length)
end

