-- ==== Sys2Proof/Laws/Codec.lean ====
section
/-! SUPPORT. The command words and operand checks, bit by bit and as bounds. -/

namespace Sys2Proof

/-- The list bounds of rule R97 as a comparison of lengths. -/
theorem fits_iff {α : Type} (l : List α) (n : Nat) : fits l n = true ↔ l.length ≤ n := by
  induction l generalizing n with
  | nil => simp [fits]
  | cons a t ih => cases n <;> simp [fits, ih]

/-- The reserved op codes are 0x8 to 0xF. -/
theorem opReserved_iff (op : BitVec 4) : opReserved op = true ↔ 8 ≤ op.toNat := by
  revert op; decide

/-- The bits of a Write command's word (rules R81 to R84). -/
theorem getLsbD_pack_write (a : ChipAddr) (v : Half) (i : Nat) :
    (pack (.write a v)).getLsbD i =
      if i < 16 then v.getLsbD i else if i < 31 then a.getLsbD (i - 16) else decide (i = 31) := by
  simp only [pack, BitVec.getLsbD_or, BitVec.getLsbD_shiftLeft, BitVec.getLsbD_setWidth, BitVec.getLsbD_one]
  by_cases h1 : i < 16
  · have h2 : i < 31 := by omega
    have h3 : i < 32 := by omega
    simp [h1, h2, h3]
  · have hv : v.getLsbD i = false := BitVec.getLsbD_of_ge v i (by omega)
    by_cases h2 : i < 31
    · have h3 : i < 32 := by omega
      have h4 : i - 16 < 32 := by omega
      simp [h1, h2, h3, h4, hv]
    · have ha : a.getLsbD (i - 16) = false := BitVec.getLsbD_of_ge a (i - 16) (by omega)
      by_cases h3 : i = 31
      · subst h3; simp
      · have h4 : ¬i < 32 := by omega
        simp [h1, h2, h3, h4]

/-- The bits of a Read command's word (rules R81 to R84). -/
theorem getLsbD_pack_read (a : ChipAddr) (i : Nat) :
    (pack (.read a)).getLsbD i = (decide (16 ≤ i) && a.getLsbD (i - 16)) := by
  simp only [pack, BitVec.getLsbD_shiftLeft, BitVec.getLsbD_setWidth]
  by_cases h1 : i < 16
  · simp [h1, Nat.not_le.mpr h1]
  · by_cases h3 : i < 32
    · have h4 : i - 16 < 32 := by omega
      simp [h1, h3, h4, Nat.not_lt.mp h1]
    · have ha : a.getLsbD (i - 16) = false := BitVec.getLsbD_of_ge a (i - 16) (by omega)
      simp [ha]

namespace Machine

/-- The address check of rule R111 as a comparison. -/
theorem addrFits_iff (a : Word) : addrFits a = true ↔ a.toNat ≤ 0x7FFF := by simp [addrFits]

/-- The value check of rule R111 as a comparison. -/
theorem valueFits_iff (v : Word) : valueFits v = true ↔ v.toNat ≤ 0xFFFF := by simp [valueFits]

/-- The register check of rule R187 as a comparison. -/
theorem regReadable_iff (r : BitVec 3) : regReadable r = true ↔ r = 4 := by revert r; decide

/-- The done flag of rule R92. -/
theorem statusDone_iff (cfg : Config.Build) (w : Word) : statusDone cfg w = true ↔ w &&& cfg.statusDoneMask ≠ 0 := by
  simp [statusDone]

end Machine

end Sys2Proof
end

