-- ==== Sys2Proof/Laws/Pending.lean ====
section
/-! SUPPORT. The waiting sets: every operation keeps the canonical form, and what a lookup finds after each. -/

namespace Sys2Proof.Machine.Pending

variable {α : Type}

/-- In canonical form every later client id is larger than the first. -/
theorem head_lt_of_wf {c : ClientId} {a : α} {t : List (ClientId × α)} (h : wf ((c, a) :: t) = true) :
    ∀ p ∈ t, c < p.1 := by
  induction t generalizing c a with
  | nil => simp
  | cons q t ih =>
    obtain ⟨d, b⟩ := q
    simp only [wf, Bool.and_eq_true, decide_eq_true_eq] at h
    intro p hp
    rcases List.mem_cons.mp hp with rfl | hp
    · exact h.1
    · exact lt_trans h.1 (ih h.2 p hp)

theorem wf_tail {p : ClientId × α} {t : List (ClientId × α)} (h : wf (p :: t) = true) : wf t = true := by
  obtain ⟨c, a⟩ := p
  cases t with
  | nil => rfl
  | cons q t => obtain ⟨d, b⟩ := q; simp only [wf, Bool.and_eq_true] at h; exact h.2

theorem wf_cons {c : ClientId} {a : α} {t : List (ClientId × α)} (ht : wf t = true) (hc : ∀ p ∈ t, c < p.1) :
    wf ((c, a) :: t) = true := by
  cases t with
  | nil => rfl
  | cons q t =>
    obtain ⟨d, b⟩ := q
    simp only [wf, Bool.and_eq_true, decide_eq_true_eq]
    exact ⟨hc (d, b) (by simp), ht⟩

theorem mem_insert {c : ClientId} {a : α} {l : List (ClientId × α)} {p : ClientId × α}
    (h : p ∈ insert c a l) : p = (c, a) ∨ p ∈ l := by
  induction l with
  | nil => simpa [insert] using h
  | cons q t ih =>
    obtain ⟨d, b⟩ := q
    simp only [insert] at h
    split at h
    · simpa using h
    · split at h
      · rcases List.mem_cons.mp h with h | h <;> simp [h]
      · rcases List.mem_cons.mp h with h | h
        · simp [h]
        · rcases ih h with h | h <;> simp [h]

theorem mem_erase {c : ClientId} {l : List (ClientId × α)} {p : ClientId × α} (h : p ∈ erase c l) : p ∈ l := by
  induction l with
  | nil => simp [erase] at h
  | cons q t ih =>
    obtain ⟨d, b⟩ := q
    simp only [erase] at h
    split at h
    · simp [h]
    · rcases List.mem_cons.mp h with h | h
      · simp [h]
      · simp [ih h]

theorem mem_of_lookup {c : ClientId} {a : α} {l : List (ClientId × α)} (h : lookup c l = some a) : (c, a) ∈ l := by
  induction l with
  | nil => simp [lookup] at h
  | cons q t ih =>
    obtain ⟨d, b⟩ := q
    simp only [lookup] at h
    split at h
    · simp_all
    · simp [ih h]

/-- Inserting keeps the canonical form. -/
theorem wf_insert {c : ClientId} {a : α} {l : List (ClientId × α)} (h : wf l = true) : wf (insert c a l) = true := by
  induction l with
  | nil => rfl
  | cons q t ih =>
    obtain ⟨d, b⟩ := q
    have hd := head_lt_of_wf h
    have ht := wf_tail h
    simp only [insert]
    split
    · refine wf_cons h fun p hp => ?_
      rcases List.mem_cons.mp hp with rfl | hp
      · assumption
      · exact lt_trans (by assumption) (hd p hp)
    · split
      · subst_vars; exact wf_cons ht hd
      · refine wf_cons (ih ht) fun p hp => ?_
        rcases mem_insert hp with rfl | hp
        · exact lt_of_le_of_ne (not_lt.mp (by assumption)) (Ne.symm (by assumption))
        · exact hd p hp

/-- Erasing keeps the canonical form. -/
theorem wf_erase {c : ClientId} {l : List (ClientId × α)} (h : wf l = true) : wf (erase c l) = true := by
  induction l with
  | nil => rfl
  | cons q t ih =>
    obtain ⟨d, b⟩ := q
    simp only [erase]
    split
    · exact wf_tail h
    · exact wf_cons (ih (wf_tail h)) fun p hp => head_lt_of_wf h p (mem_erase hp)

@[simp] theorem lookup_insert_self (c : ClientId) (a : α) (l : List (ClientId × α)) :
    lookup c (insert c a l) = some a := by
  induction l with
  | nil => simp [insert, lookup]
  | cons q t ih =>
    obtain ⟨d, b⟩ := q
    simp only [insert]
    split
    · simp [lookup]
    · split
      · simp [lookup]
      · have : d ≠ c := fun h => by simp_all
        simp [lookup, this, ih]

@[simp] theorem lookup_insert_ne {c d : ClientId} (a : α) (l : List (ClientId × α)) (h : d ≠ c) :
    lookup d (insert c a l) = lookup d l := by
  have h' : c ≠ d := fun e => h e.symm
  induction l with
  | nil => simp [insert, lookup, h']
  | cons q t ih =>
    obtain ⟨e, b⟩ := q
    simp only [insert]
    split
    · simp [lookup, h']
    · split
      · subst_vars; simp [lookup, h']
      · simp [lookup, ih]

@[simp] theorem lookup_erase_ne {c d : ClientId} (l : List (ClientId × α)) (h : d ≠ c) :
    lookup d (erase c l) = lookup d l := by
  have h' : c ≠ d := fun e => h e.symm
  induction l with
  | nil => rfl
  | cons q t ih =>
    obtain ⟨e, b⟩ := q
    simp only [erase]
    split
    · subst_vars; simp [lookup, h']
    · simp [lookup, ih]

/-- In canonical form an erased client has no entry left. -/
theorem lookup_erase_self {c : ClientId} {l : List (ClientId × α)} (h : wf l = true) :
    lookup c (erase c l) = none := by
  have key : ∀ (t : List (ClientId × α)), (∀ p ∈ t, c < p.1) → lookup c t = none := by
    intro t ht
    induction t with
    | nil => rfl
    | cons q t ih =>
      obtain ⟨d, b⟩ := q
      have hd : c < d := ht (d, b) (by simp)
      simp only [lookup]
      rw [if_neg (ne_of_gt hd)]
      exact ih fun p hp => ht p (by simp [hp])
  induction l with
  | nil => rfl
  | cons q t ih =>
    obtain ⟨d, b⟩ := q
    simp only [erase]
    split
    · subst_vars; exact key t (head_lt_of_wf h)
    · simp [lookup, *, ih (wf_tail h)]

/-- A request that enters the set and is taken out again leaves it as it was. -/
theorem erase_insert_of_not_has {c : ClientId} (a : α) {l : List (ClientId × α)} (h : has c l = false) :
    erase c (insert c a l) = l := by
  induction l with
  | nil => simp [insert, erase]
  | cons q t ih =>
    obtain ⟨d, b⟩ := q
    simp only [has, lookup] at h ih
    split at h
    · cases h
    · rename_i hd
      simp only [insert]
      split
      · simp [erase]
      · split
        · exact absurd (by assumption) (Ne.symm hd)
        · simp [erase, hd, ih h]

@[simp] theorem has_insert_self (c : ClientId) (a : α) (l : List (ClientId × α)) :
    has c (insert c a l) = true := by simp [has]

theorem has_insert_ne {c d : ClientId} (a : α) (l : List (ClientId × α)) (h : d ≠ c) :
    has d (insert c a l) = has d l := by simp [has, h]

theorem has_erase_ne {c d : ClientId} (l : List (ClientId × α)) (h : d ≠ c) :
    has d (erase c l) = has d l := by simp [has, h]

theorem has_erase_self {c : ClientId} {l : List (ClientId × α)} (h : wf l = true) :
    has c (erase c l) = false := by simp [has, lookup_erase_self h]

end Sys2Proof.Machine.Pending
end

