-- ==== Sys2Proof/Laws/State.lean ====
section
/-! SUPPORT. Every field of State after every named operation: one lemma each, so that no proof unfolds an
operation to read a field. -/

namespace Sys2Proof.Machine

variable (s : State)

@[simp] theorem regWrite_cfg (r : RegId) (v : Word) : (regWrite r v s).cfg = s.cfg := rfl
@[simp] theorem regWrite_seq (r : RegId) (v : Word) : (regWrite r v s).seq = s.seq := rfl
@[simp] theorem regWrite_batch (r : RegId) (v : Word) : (regWrite r v s).batch = s.batch := rfl
@[simp] theorem regWrite_timeoutSeen (r : RegId) (v : Word) : (regWrite r v s).timeoutSeen = s.timeoutSeen := rfl
@[simp] theorem regWrite_tune (r : RegId) (v : Word) : (regWrite r v s).tune = s.tune := rfl
@[simp] theorem regWrite_arbPending (r : RegId) (v : Word) : (regWrite r v s).arbPending = s.arbPending := rfl
@[simp] theorem regWrite_tunePending (r : RegId) (v : Word) : (regWrite r v s).tunePending = s.tunePending := rfl
@[simp] theorem regWrite_bridge (r : RegId) (v : Word) : (regWrite r v s).bridge = s.bridge.onWrite r v := rfl
@[simp] theorem regWrite_port (r : RegId) (v : Word) : (regWrite r v s).port = s.port := rfl
@[simp] theorem regWrite_turns (r : RegId) (v : Word) : (regWrite r v s).turns = s.turns := rfl
@[simp] theorem regWrite_portClient (r : RegId) (v : Word) : (regWrite r v s).portClient = s.portClient := rfl
@[simp] theorem regWrite_busAnswer (r : RegId) (v : Word) : (regWrite r v s).busAnswer = s.busAnswer := rfl
@[simp] theorem regWrite_bus (r : RegId) (v : Word) :
    (regWrite r v s).bus = s.bus ++ [⟨s.seq.owner, .write, r, v⟩] := rfl
@[simp] theorem regWrite_results (r : RegId) (v : Word) : (regWrite r v s).results = s.results := rfl
@[simp] theorem regWrite_calls (r : RegId) (v : Word) : (regWrite r v s).calls = s.calls := rfl

@[simp] theorem regRead_cfg (r : RegId) : (regRead r s).cfg = s.cfg := rfl
@[simp] theorem regRead_seq (r : RegId) : (regRead r s).seq = s.seq := rfl
@[simp] theorem regRead_batch (r : RegId) : (regRead r s).batch = s.batch := rfl
@[simp] theorem regRead_timeoutSeen (r : RegId) : (regRead r s).timeoutSeen = s.timeoutSeen := rfl
@[simp] theorem regRead_tune (r : RegId) : (regRead r s).tune = s.tune := rfl
@[simp] theorem regRead_arbPending (r : RegId) : (regRead r s).arbPending = s.arbPending := rfl
@[simp] theorem regRead_tunePending (r : RegId) : (regRead r s).tunePending = s.tunePending := rfl
@[simp] theorem regRead_bridge (r : RegId) : (regRead r s).bridge = s.bridge.onRead s.cfg r s.busAnswer := rfl
@[simp] theorem regRead_port (r : RegId) : (regRead r s).port = s.port := rfl
@[simp] theorem regRead_turns (r : RegId) : (regRead r s).turns = s.turns := rfl
@[simp] theorem regRead_portClient (r : RegId) : (regRead r s).portClient = s.portClient := rfl
@[simp] theorem regRead_busAnswer (r : RegId) : (regRead r s).busAnswer = s.busAnswer := rfl
@[simp] theorem regRead_bus (r : RegId) : (regRead r s).bus = s.bus ++ [⟨s.seq.owner, .read, r, s.busAnswer⟩] := rfl
@[simp] theorem regRead_results (r : RegId) : (regRead r s).results = s.results := rfl
@[simp] theorem regRead_calls (r : RegId) : (regRead r s).calls = s.calls := rfl

@[simp] theorem deliver_cfg (c : ClientId) (r : Result) : (deliver c r s).cfg = s.cfg := rfl
@[simp] theorem deliver_seq (c : ClientId) (r : Result) : (deliver c r s).seq = s.seq := rfl
@[simp] theorem deliver_batch (c : ClientId) (r : Result) : (deliver c r s).batch = s.batch := rfl
@[simp] theorem deliver_timeoutSeen (c : ClientId) (r : Result) : (deliver c r s).timeoutSeen = s.timeoutSeen := rfl
@[simp] theorem deliver_tune (c : ClientId) (r : Result) : (deliver c r s).tune = s.tune := rfl
@[simp] theorem deliver_arbPending (c : ClientId) (r : Result) : (deliver c r s).arbPending = s.arbPending := rfl
@[simp] theorem deliver_tunePending (c : ClientId) (r : Result) : (deliver c r s).tunePending = s.tunePending := rfl
@[simp] theorem deliver_bridge (c : ClientId) (r : Result) : (deliver c r s).bridge = s.bridge := rfl
@[simp] theorem deliver_port (c : ClientId) (r : Result) : (deliver c r s).port = s.port := rfl
@[simp] theorem deliver_turns (c : ClientId) (r : Result) : (deliver c r s).turns = s.turns := rfl
@[simp] theorem deliver_portClient (c : ClientId) (r : Result) : (deliver c r s).portClient = s.portClient := rfl
@[simp] theorem deliver_busAnswer (c : ClientId) (r : Result) : (deliver c r s).busAnswer = s.busAnswer := rfl
@[simp] theorem deliver_bus (c : ClientId) (r : Result) : (deliver c r s).bus = s.bus := rfl
@[simp] theorem deliver_results (c : ClientId) (r : Result) : (deliver c r s).results = s.results ++ [⟨c, r⟩] := rfl
@[simp] theorem deliver_calls (c : ClientId) (r : Result) : (deliver c r s).calls = s.calls := rfl

@[simp] theorem raiseError_cfg (c : ClientId) (e : ErrCode) (w : Word) : (raiseError c e w s).cfg = s.cfg := rfl
@[simp] theorem raiseError_seq (c : ClientId) (e : ErrCode) (w : Word) : (raiseError c e w s).seq = s.seq := rfl
@[simp] theorem raiseError_batch (c : ClientId) (e : ErrCode) (w : Word) : (raiseError c e w s).batch = s.batch := rfl
@[simp] theorem raiseError_timeoutSeen (c : ClientId) (e : ErrCode) (w : Word) :
    (raiseError c e w s).timeoutSeen = s.timeoutSeen := rfl
@[simp] theorem raiseError_tune (c : ClientId) (e : ErrCode) (w : Word) : (raiseError c e w s).tune = s.tune := rfl
@[simp] theorem raiseError_arbPending (c : ClientId) (e : ErrCode) (w : Word) :
    (raiseError c e w s).arbPending = s.arbPending := rfl
@[simp] theorem raiseError_tunePending (c : ClientId) (e : ErrCode) (w : Word) :
    (raiseError c e w s).tunePending = s.tunePending := rfl
@[simp] theorem raiseError_bridge (c : ClientId) (e : ErrCode) (w : Word) :
    (raiseError c e w s).bridge = s.bridge := rfl
@[simp] theorem raiseError_port (c : ClientId) (e : ErrCode) (w : Word) : (raiseError c e w s).port = s.port := rfl
@[simp] theorem raiseError_turns (c : ClientId) (e : ErrCode) (w : Word) : (raiseError c e w s).turns = s.turns := rfl
@[simp] theorem raiseError_portClient (c : ClientId) (e : ErrCode) (w : Word) :
    (raiseError c e w s).portClient = s.portClient := rfl
@[simp] theorem raiseError_busAnswer (c : ClientId) (e : ErrCode) (w : Word) :
    (raiseError c e w s).busAnswer = s.busAnswer := rfl
@[simp] theorem raiseError_bus (c : ClientId) (e : ErrCode) (w : Word) : (raiseError c e w s).bus = s.bus := rfl
@[simp] theorem raiseError_results (c : ClientId) (e : ErrCode) (w : Word) :
    (raiseError c e w s).results = s.results ++ [⟨c, ⟨e, w, .none⟩⟩] := rfl
@[simp] theorem raiseError_calls (c : ClientId) (e : ErrCode) (w : Word) : (raiseError c e w s).calls = s.calls := rfl

@[simp] theorem release_cfg : (release s).cfg = s.cfg := rfl
@[simp] theorem release_seq : (release s).seq = { s.seq with owner := none, mode := none } := rfl
@[simp] theorem release_batch : (release s).batch = s.batch := rfl
@[simp] theorem release_timeoutSeen : (release s).timeoutSeen = s.timeoutSeen := rfl
@[simp] theorem release_tune : (release s).tune = s.tune := rfl
@[simp] theorem release_arbPending : (release s).arbPending = s.arbPending := rfl
@[simp] theorem release_tunePending : (release s).tunePending = s.tunePending := rfl
@[simp] theorem release_bridge : (release s).bridge = s.bridge := rfl
@[simp] theorem release_port : (release s).port = s.port := rfl
@[simp] theorem release_turns : (release s).turns = s.turns := rfl
@[simp] theorem release_portClient : (release s).portClient = s.portClient := rfl
@[simp] theorem release_busAnswer : (release s).busAnswer = s.busAnswer := rfl
@[simp] theorem release_bus : (release s).bus = s.bus := rfl
@[simp] theorem release_results : (release s).results = s.results := rfl
@[simp] theorem release_calls : (release s).calls = s.calls := rfl

@[simp] theorem start_cfg (cmd : Command) : (start cmd s).cfg = s.cfg := rfl
@[simp] theorem start_seq (cmd : Command) :
    (start cmd s).seq = { s.seq with cmd := some cmd, polls := 0, st := .wrMosi } := rfl
@[simp] theorem start_batch (cmd : Command) : (start cmd s).batch = s.batch := rfl
@[simp] theorem start_timeoutSeen (cmd : Command) : (start cmd s).timeoutSeen = s.timeoutSeen := rfl
@[simp] theorem start_tune (cmd : Command) : (start cmd s).tune = s.tune := rfl
@[simp] theorem start_arbPending (cmd : Command) : (start cmd s).arbPending = s.arbPending := rfl
@[simp] theorem start_tunePending (cmd : Command) : (start cmd s).tunePending = s.tunePending := rfl
@[simp] theorem start_bridge (cmd : Command) : (start cmd s).bridge = s.bridge := rfl
@[simp] theorem start_port (cmd : Command) : (start cmd s).port = s.port := rfl
@[simp] theorem start_turns (cmd : Command) : (start cmd s).turns = s.turns := rfl
@[simp] theorem start_portClient (cmd : Command) : (start cmd s).portClient = s.portClient := rfl
@[simp] theorem start_busAnswer (cmd : Command) : (start cmd s).busAnswer = s.busAnswer := rfl
@[simp] theorem start_bus (cmd : Command) : (start cmd s).bus = s.bus := rfl
@[simp] theorem start_results (cmd : Command) : (start cmd s).results = s.results := rfl
@[simp] theorem start_calls (cmd : Command) : (start cmd s).calls = s.calls := rfl

@[simp] theorem endTransaction_cfg : (endTransaction s).cfg = s.cfg := rfl
@[simp] theorem endTransaction_seq : (endTransaction s).seq = { s.seq with st := .idle, cmd := none } := rfl
@[simp] theorem endTransaction_batch : (endTransaction s).batch = s.batch := rfl
@[simp] theorem endTransaction_timeoutSeen : (endTransaction s).timeoutSeen = s.timeoutSeen := rfl
@[simp] theorem endTransaction_tune : (endTransaction s).tune = s.tune := rfl
@[simp] theorem endTransaction_arbPending : (endTransaction s).arbPending = s.arbPending := rfl
@[simp] theorem endTransaction_tunePending : (endTransaction s).tunePending = s.tunePending := rfl
@[simp] theorem endTransaction_bridge : (endTransaction s).bridge = s.bridge := rfl
@[simp] theorem endTransaction_port : (endTransaction s).port = s.port := rfl
@[simp] theorem endTransaction_turns : (endTransaction s).turns = s.turns := rfl
@[simp] theorem endTransaction_portClient : (endTransaction s).portClient = s.portClient := rfl
@[simp] theorem endTransaction_busAnswer : (endTransaction s).busAnswer = s.busAnswer := rfl
@[simp] theorem endTransaction_bus : (endTransaction s).bus = s.bus := rfl
@[simp] theorem endTransaction_results : (endTransaction s).results = s.results := rfl
@[simp] theorem endTransaction_calls : (endTransaction s).calls = s.calls := rfl

@[simp] theorem collect_cfg (r : Response) : (collect r s).cfg = s.cfg := rfl
@[simp] theorem collect_seq (r : Response) : (collect r s).seq = s.seq := rfl
@[simp] theorem collect_batch (r : Response) :
    (collect r s).batch = { s.batch with resps := s.batch.resps ++ [r], idx := s.batch.idx + 1 } := rfl
@[simp] theorem collect_timeoutSeen (r : Response) : (collect r s).timeoutSeen = s.timeoutSeen := rfl
@[simp] theorem collect_tune (r : Response) : (collect r s).tune = s.tune := rfl
@[simp] theorem collect_arbPending (r : Response) : (collect r s).arbPending = s.arbPending := rfl
@[simp] theorem collect_tunePending (r : Response) : (collect r s).tunePending = s.tunePending := rfl
@[simp] theorem collect_bridge (r : Response) : (collect r s).bridge = s.bridge := rfl
@[simp] theorem collect_port (r : Response) : (collect r s).port = s.port := rfl
@[simp] theorem collect_turns (r : Response) : (collect r s).turns = s.turns := rfl
@[simp] theorem collect_portClient (r : Response) : (collect r s).portClient = s.portClient := rfl
@[simp] theorem collect_busAnswer (r : Response) : (collect r s).busAnswer = s.busAnswer := rfl
@[simp] theorem collect_bus (r : Response) : (collect r s).bus = s.bus := rfl
@[simp] theorem collect_results (r : Response) : (collect r s).results = s.results := rfl
@[simp] theorem collect_calls (r : Response) : (collect r s).calls = s.calls := rfl

@[simp] theorem setTimeoutSeen_cfg : (setTimeoutSeen s).cfg = s.cfg := rfl
@[simp] theorem setTimeoutSeen_seq : (setTimeoutSeen s).seq = s.seq := rfl
@[simp] theorem setTimeoutSeen_batch : (setTimeoutSeen s).batch = s.batch := rfl
@[simp] theorem setTimeoutSeen_timeoutSeen : (setTimeoutSeen s).timeoutSeen = true := rfl
@[simp] theorem setTimeoutSeen_tune : (setTimeoutSeen s).tune = s.tune := rfl
@[simp] theorem setTimeoutSeen_arbPending : (setTimeoutSeen s).arbPending = s.arbPending := rfl
@[simp] theorem setTimeoutSeen_tunePending : (setTimeoutSeen s).tunePending = s.tunePending := rfl
@[simp] theorem setTimeoutSeen_bridge : (setTimeoutSeen s).bridge = s.bridge := rfl
@[simp] theorem setTimeoutSeen_port : (setTimeoutSeen s).port = s.port := rfl
@[simp] theorem setTimeoutSeen_turns : (setTimeoutSeen s).turns = s.turns := rfl
@[simp] theorem setTimeoutSeen_portClient : (setTimeoutSeen s).portClient = s.portClient := rfl
@[simp] theorem setTimeoutSeen_busAnswer : (setTimeoutSeen s).busAnswer = s.busAnswer := rfl
@[simp] theorem setTimeoutSeen_bus : (setTimeoutSeen s).bus = s.bus := rfl
@[simp] theorem setTimeoutSeen_results : (setTimeoutSeen s).results = s.results := rfl
@[simp] theorem setTimeoutSeen_calls : (setTimeoutSeen s).calls = s.calls := rfl

@[simp] theorem pollRead_cfg : (pollRead s).cfg = s.cfg := rfl
@[simp] theorem pollRead_seq : (pollRead s).seq = { s.seq with polls := s.seq.polls + 1 } := rfl
@[simp] theorem pollRead_batch : (pollRead s).batch = s.batch := rfl
@[simp] theorem pollRead_timeoutSeen : (pollRead s).timeoutSeen = s.timeoutSeen := rfl
@[simp] theorem pollRead_tune : (pollRead s).tune = s.tune := rfl
@[simp] theorem pollRead_arbPending : (pollRead s).arbPending = s.arbPending := rfl
@[simp] theorem pollRead_tunePending : (pollRead s).tunePending = s.tunePending := rfl
@[simp] theorem pollRead_bridge : (pollRead s).bridge = s.bridge.onRead s.cfg .spiStatus s.busAnswer := rfl
@[simp] theorem pollRead_port : (pollRead s).port = s.port := rfl
@[simp] theorem pollRead_turns : (pollRead s).turns = s.turns := rfl
@[simp] theorem pollRead_portClient : (pollRead s).portClient = s.portClient := rfl
@[simp] theorem pollRead_busAnswer : (pollRead s).busAnswer = s.busAnswer := rfl
@[simp] theorem pollRead_bus : (pollRead s).bus = s.bus ++ [⟨s.seq.owner, .read, .spiStatus, s.busAnswer⟩] := rfl
@[simp] theorem pollRead_results : (pollRead s).results = s.results := rfl
@[simp] theorem pollRead_calls : (pollRead s).calls = s.calls := rfl

@[simp] theorem acceptBus_cfg (q : BusRequest) : (acceptBus q s).cfg = s.cfg := rfl
@[simp] theorem acceptBus_seq (q : BusRequest) : (acceptBus q s).seq = s.seq := rfl
@[simp] theorem acceptBus_batch (q : BusRequest) : (acceptBus q s).batch = s.batch := rfl
@[simp] theorem acceptBus_timeoutSeen (q : BusRequest) : (acceptBus q s).timeoutSeen = s.timeoutSeen := rfl
@[simp] theorem acceptBus_tune (q : BusRequest) : (acceptBus q s).tune = s.tune := rfl
@[simp] theorem acceptBus_arbPending (q : BusRequest) :
    (acceptBus q s).arbPending = Pending.insert s.portClient q s.arbPending := rfl
@[simp] theorem acceptBus_tunePending (q : BusRequest) : (acceptBus q s).tunePending = s.tunePending := rfl
@[simp] theorem acceptBus_bridge (q : BusRequest) : (acceptBus q s).bridge = s.bridge := rfl
@[simp] theorem acceptBus_port (q : BusRequest) : (acceptBus q s).port = s.port := rfl
@[simp] theorem acceptBus_turns (q : BusRequest) : (acceptBus q s).turns = s.turns := rfl
@[simp] theorem acceptBus_portClient (q : BusRequest) : (acceptBus q s).portClient = s.portClient := rfl
@[simp] theorem acceptBus_busAnswer (q : BusRequest) : (acceptBus q s).busAnswer = s.busAnswer := rfl
@[simp] theorem acceptBus_bus (q : BusRequest) : (acceptBus q s).bus = s.bus := rfl
@[simp] theorem acceptBus_results (q : BusRequest) : (acceptBus q s).results = s.results := rfl
@[simp] theorem acceptBus_calls (q : BusRequest) : (acceptBus q s).calls = s.calls := rfl

@[simp] theorem holdGrant_cfg (c : ClientId) (m : SeqMode) : (holdGrant c m s).cfg = s.cfg := rfl
@[simp] theorem holdGrant_seq (c : ClientId) (m : SeqMode) :
    (holdGrant c m s).seq = { s.seq with owner := some c, mode := some m } := rfl
@[simp] theorem holdGrant_batch (c : ClientId) (m : SeqMode) : (holdGrant c m s).batch = s.batch := rfl
@[simp] theorem holdGrant_timeoutSeen (c : ClientId) (m : SeqMode) :
    (holdGrant c m s).timeoutSeen = s.timeoutSeen := rfl
@[simp] theorem holdGrant_tune (c : ClientId) (m : SeqMode) : (holdGrant c m s).tune = s.tune := rfl
@[simp] theorem holdGrant_arbPending (c : ClientId) (m : SeqMode) :
    (holdGrant c m s).arbPending = Pending.erase c s.arbPending := rfl
@[simp] theorem holdGrant_tunePending (c : ClientId) (m : SeqMode) :
    (holdGrant c m s).tunePending = s.tunePending := rfl
@[simp] theorem holdGrant_bridge (c : ClientId) (m : SeqMode) : (holdGrant c m s).bridge = s.bridge := rfl
@[simp] theorem holdGrant_port (c : ClientId) (m : SeqMode) : (holdGrant c m s).port = s.port := rfl
@[simp] theorem holdGrant_turns (c : ClientId) (m : SeqMode) : (holdGrant c m s).turns = s.turns := rfl
@[simp] theorem holdGrant_portClient (c : ClientId) (m : SeqMode) : (holdGrant c m s).portClient = s.portClient := rfl
@[simp] theorem holdGrant_busAnswer (c : ClientId) (m : SeqMode) : (holdGrant c m s).busAnswer = s.busAnswer := rfl
@[simp] theorem holdGrant_bus (c : ClientId) (m : SeqMode) : (holdGrant c m s).bus = s.bus := rfl
@[simp] theorem holdGrant_results (c : ClientId) (m : SeqMode) : (holdGrant c m s).results = s.results := rfl
@[simp] theorem holdGrant_calls (c : ClientId) (m : SeqMode) : (holdGrant c m s).calls = s.calls := rfl

@[simp] theorem assertReset_cfg (slot : BridgeSlot) : (assertReset slot s).cfg = s.cfg := rfl
@[simp] theorem assertReset_seq (slot : BridgeSlot) : (assertReset slot s).seq = Seq.reset := rfl
@[simp] theorem assertReset_batch (slot : BridgeSlot) : (assertReset slot s).batch = Batch.reset := rfl
@[simp] theorem assertReset_timeoutSeen (slot : BridgeSlot) : (assertReset slot s).timeoutSeen = false := rfl
@[simp] theorem assertReset_tune (slot : BridgeSlot) : (assertReset slot s).tune = Tune.reset := rfl
@[simp] theorem assertReset_arbPending (slot : BridgeSlot) : (assertReset slot s).arbPending = [] := rfl
@[simp] theorem assertReset_tunePending (slot : BridgeSlot) : (assertReset slot s).tunePending = [] := rfl
@[simp] theorem assertReset_bridge (slot : BridgeSlot) :
    (assertReset slot s).bridge = { s.bridge with slot := slot } := rfl
@[simp] theorem assertReset_port (slot : BridgeSlot) : (assertReset slot s).port = s.port := rfl
@[simp] theorem assertReset_turns (slot : BridgeSlot) : (assertReset slot s).turns = s.turns := rfl
@[simp] theorem assertReset_portClient (slot : BridgeSlot) : (assertReset slot s).portClient = s.portClient := rfl
@[simp] theorem assertReset_busAnswer (slot : BridgeSlot) : (assertReset slot s).busAnswer = s.busAnswer := rfl
@[simp] theorem assertReset_bus (slot : BridgeSlot) : (assertReset slot s).bus = s.bus := rfl
@[simp] theorem assertReset_results (slot : BridgeSlot) : (assertReset slot s).results = s.results := rfl
@[simp] theorem assertReset_calls (slot : BridgeSlot) : (assertReset slot s).calls = s.calls := rfl

@[simp] theorem freeSlot_cfg : (freeSlot s).cfg = s.cfg := rfl
@[simp] theorem freeSlot_seq : (freeSlot s).seq = s.seq := rfl
@[simp] theorem freeSlot_batch : (freeSlot s).batch = s.batch := rfl
@[simp] theorem freeSlot_timeoutSeen : (freeSlot s).timeoutSeen = s.timeoutSeen := rfl
@[simp] theorem freeSlot_tune : (freeSlot s).tune = s.tune := rfl
@[simp] theorem freeSlot_arbPending : (freeSlot s).arbPending = s.arbPending := rfl
@[simp] theorem freeSlot_tunePending : (freeSlot s).tunePending = s.tunePending := rfl
@[simp] theorem freeSlot_bridge : (freeSlot s).bridge = { s.bridge with slot := .idle } := rfl
@[simp] theorem freeSlot_port : (freeSlot s).port = s.port := rfl
@[simp] theorem freeSlot_turns : (freeSlot s).turns = s.turns := rfl
@[simp] theorem freeSlot_portClient : (freeSlot s).portClient = s.portClient := rfl
@[simp] theorem freeSlot_busAnswer : (freeSlot s).busAnswer = s.busAnswer := rfl
@[simp] theorem freeSlot_bus : (freeSlot s).bus = s.bus := rfl
@[simp] theorem freeSlot_results : (freeSlot s).results = s.results := rfl
@[simp] theorem freeSlot_calls : (freeSlot s).calls = s.calls := rfl

end Sys2Proof.Machine
end

