-- ==== Sys2Proof/Laws/Ops.lean ====
section
/-! SUPPORT. For each shared operation, once, everything it can do when it answers a next state. -/

namespace Sys2Proof.Machine

/-- The three ways a transaction that completes with `r` goes on (rules R138 and R142). -/
theorem complete_cases {r : Response} {s t : State} (h : complete r s = .next t) :
    (∃ c, s.seq.mode = some .single ∧ s.seq.owner = some c ∧
      t = release (deliver c (okResult (.response r)) (endTransaction s))) ∨
    (∃ c, s.seq.mode = some .many ∧ s.seq.owner = some c ∧ s.batch.idx + 1 = s.batch.cmds.length ∧
      t = release (deliver c (okResult (.responses (s.batch.resps ++ [r]))) (collect r (endTransaction s)))) ∨
    (∃ c cmd, s.seq.mode = some .many ∧ s.seq.owner = some c ∧ s.batch.cmds[s.batch.idx + 1]? = some cmd ∧
      t = start cmd (collect r (endTransaction s))) := by
  unfold complete at h
  split at h
  · cases h
  · cases h
  · cases h
  · rename_i c hm ho
    cases h
    exact .inl ⟨c, hm, ho, rfl⟩
  · rename_i c hm ho
    unfold batchNext batchGoOn at h
    split at h
    · rename_i hl
      cases h
      exact .inr (.inl ⟨c, hm, ho, hl, rfl⟩)
    · split at h
      · rename_i cmd hcmd
        cases h
        exact .inr (.inr ⟨c, cmd, hm, ho, hcmd, rfl⟩)
      · cases h

/-- The two ways a transaction that fails with `e` ends its request (rules R138 and R143). -/
theorem fail_cases {e : ErrCode} {s t : State} (h : fail e s = .next t) :
    (∃ c, s.seq.mode = some .single ∧ s.seq.owner = some c ∧
      t = release (raiseError c e 0 (endTransaction s))) ∨
    (∃ c, s.seq.mode = some .many ∧ s.seq.owner = some c ∧
      t = release (raiseError c e (BitVec.ofNat 32 s.batch.idx) (endTransaction s))) := by
  unfold fail at h
  split at h
  · cases h
  · cases h
  · cases h
  · rename_i c hm ho
    cases h
    exact .inl ⟨c, hm, ho, rfl⟩
  · rename_i c hm ho
    cases h
    exact .inr ⟨c, hm, ho, rfl⟩

/-- What a STATUS read that shows not-done leads to (rule R136). -/
theorem pollNotDone_cases {s t : State} (h : pollNotDone s = .next t) :
    (s.cfg.pollLimit ≠ some s.seq.polls ∧ t = s) ∨
    (s.cfg.pollLimit = some s.seq.polls ∧ fail .transactionTimeout (setTimeoutSeen s) = .next t) := by
  unfold pollNotDone at h
  split at h
  · exact .inr ⟨‹_›, h⟩
  · cases h; exact .inl ⟨‹_›, rfl⟩

/-- One register access of the transaction of `cmd` (rules R133 to R137), seen as a relation: everything an SPI
command can do in one step. -/
inductive Accesses (cmd : Command) (s : State) : State → Prop
  | wrMosi (h : s.seq.st = .wrMosi) :
      Accesses cmd s { regWrite .spiMosi (pack cmd) s with seq := { s.seq with st := .wrCtrl } }
  | wrCtrl (h : s.seq.st = .wrCtrl) :
      Accesses cmd s { regWrite .spiControl s.cfg.ctrlStartWord s with seq := { s.seq with st := .poll } }
  | pollAgain (h : s.seq.st = .poll) (hd : statusDone s.cfg s.busAnswer = false)
      (hl : s.cfg.pollLimit ≠ some (s.seq.polls + 1)) : Accesses cmd s (pollRead s)
  | timeout (t : State) (h : s.seq.st = .poll) (hd : statusDone s.cfg s.busAnswer = false)
      (hl : s.cfg.pollLimit = some (s.seq.polls + 1))
      (hf : fail .transactionTimeout (setTimeoutSeen (pollRead s)) = .next t) : Accesses cmd s t
  | writeDone (t : State) (a : ChipAddr) (v : Half) (hcmd : cmd = .write a v) (h : s.seq.st = .poll)
      (hd : statusDone s.cfg s.busAnswer = true) (hc : complete .noPayload (pollRead s) = .next t) :
      Accesses cmd s t
  | readDone (a : ChipAddr) (hcmd : cmd = .read a) (h : s.seq.st = .poll)
      (hd : statusDone s.cfg s.busAnswer = true) :
      Accesses cmd s { pollRead s with seq := { (pollRead s).seq with st := .rdMiso } }
  | rdMiso (t : State) (a : ChipAddr) (hcmd : cmd = .read a) (h : s.seq.st = .rdMiso)
      (hc : complete (readResponse s.busAnswer) (regRead .spiMiso s) = .next t) : Accesses cmd s t

/-- An SPI command that answers a next state made one of the accesses. -/
theorem accesses_of_exec {cmd : Command} {s t : State} (h : exec (Instr.ofCommand cmd) s = .next t) :
    Accesses cmd s t := by
  cases cmd with
  | write a v =>
    simp only [Instr.ofCommand, exec, execSpiWrite] at h
    split at h
    · cases h
    · cases h; exact .wrMosi ‹_›
    · cases h; exact .wrCtrl ‹_›
    · split at h
      · exact .writeDone t a v rfl ‹_› ‹_› h
      · rename_i hd
        rcases pollNotDone_cases h with ⟨hl, rfl⟩ | ⟨hl, hf⟩
        · exact .pollAgain ‹_› (by simpa using hd) hl
        · exact .timeout t ‹_› (by simpa using hd) hl hf
    · cases h
  | read a =>
    simp only [Instr.ofCommand, exec, execSpiRead] at h
    split at h
    · cases h
    · cases h; exact .wrMosi ‹_›
    · cases h; exact .wrCtrl ‹_›
    · split at h
      · cases h; exact .readDone a rfl ‹_› ‹_›
      · rename_i hd
        rcases pollNotDone_cases h with ⟨hl, rfl⟩ | ⟨hl, hf⟩
        · exact .pollAgain ‹_› (by simpa using hd) hl
        · exact .timeout t ‹_› (by simpa using hd) hl hf
    · exact .rdMiso t a rfl ‹_› h

/-- The tuner's registers as `beginTune` sets them, before the first attempt (rule R162). -/
def tuneStarted (c : ClientId) (freq : Freq) (cands : List Word) (s : State) : Tune :=
  { s.tune with owner := some c, freq := some freq, cands := cands, budget := tuneBudget cands, idx := 0,
                attemptsMade := 0 }

/-- The two ways a TUNE_CGEN starts (rule R162): with an empty budget it ends, else it makes attempt 0. -/
theorem beginTune_cases {c : ClientId} {freq : Freq} {cands : List Word} {s t : State}
    (h : beginTune c freq cands s = .next t) :
    (tuneBudget cands = 0 ∧
      t = raiseError c .tuneFailure 0
        { s with tune := { tuneStarted c freq cands s with st := .exhausted, owner := none } }) ∨
    (∃ div, tuneBudget cands ≠ 0 ∧ cands[0]? = some div ∧
      t = { s with calls := s.calls ++ [⟨freq, clkCode div⟩],
                   tune := { tuneStarted c freq cands s with st := .searching, waiting := true,
                                                             attemptsMade := 1 } }) := by
  simp only [beginTune] at h
  split at h
  · cases h; exact .inl ⟨‹_›, rfl⟩
  · rename_i hb
    simp only [attempt] at h
    split at h
    · cases h
    · rename_i hf; cases hf
    · rename_i div f hd hf
      cases h; cases hf
      exact .inr ⟨div, hb, hd, rfl⟩

/-- The self-wait of rule R244 is one of the waits in which the RF control library does not answer. -/
theorem rflibBusy_of_selfWait {s : State} (h : rflibSelfWait s = true) : rflibBusy s = true := by
  simp [rflibBusy, h]

/-- The three ways an answer of the RF control library moves the tuner (rules R165 and R166). -/
theorem tuneAnswer_cases {answer : TuneResult} {s t : State} (h : tuneAnswer answer s = .next t) :
    ((s.tune.waiting = false ∨ rflibBusy s = true) ∧ t = s) ∨
    (s.tune.waiting = true ∧ rflibBusy s = false ∧
      ((∃ c, answer = .ok ∧ s.tune.owner = some c ∧
          t = deliver c ⟨.ok, BitVec.ofNat 32 s.tune.attemptsMade, .none⟩
            { s with tune := { s.tune with waiting := false, st := .succeeded, owner := none } }) ∨
       (∃ c, answer = .err ∧ s.tune.owner = some c ∧ s.tune.idx + 1 = s.tune.budget ∧
          t = raiseError c .tuneFailure (BitVec.ofNat 32 s.tune.budget)
            { s with tune := { s.tune with waiting := false, st := .exhausted, owner := none } }) ∨
       (∃ div f, answer = .err ∧ s.tune.idx + 1 ≠ s.tune.budget ∧ s.tune.cands[s.tune.idx + 1]? = some div ∧
          s.tune.freq = some f ∧
          t = { s with calls := s.calls ++ [⟨f, clkCode div⟩],
                       tune := { s.tune with waiting := true, idx := s.tune.idx + 1,
                                             attemptsMade := s.tune.idx + 2 } }))) := by
  unfold tuneAnswer at h
  split at h
  · rename_i hw
    simp only [Bool.and_eq_true, Bool.not_eq_true'] at hw
    refine .inr ⟨hw.1, hw.2, ?_⟩
    cases answer with
    | ok =>
      simp only [attemptOk] at h
      split at h
      · cases h
      · cases h; exact .inl ⟨_, rfl, ‹_›, rfl⟩
    | err =>
      simp only [attemptErr] at h
      split at h
      · split at h
        · cases h
        · cases h; exact .inr (.inl ⟨_, rfl, ‹_›, ‹_›, rfl⟩)
      · simp only [attempt] at h
        split at h
        · cases h
        · cases h
        · rename_i div f hd hf
          cases h; exact .inr (.inr ⟨div, f, rfl, ‹_›, hd, hf, rfl⟩)
  · rename_i hw
    cases h
    refine .inl ⟨?_, rfl⟩
    simp only [Bool.and_eq_true, Bool.not_eq_true', not_and_or, Bool.not_eq_true, Bool.not_eq_false] at hw
    simpa using hw

/-- The three ways a grant goes (rule R181). -/
theorem grant_cases {pick : ClientId} {s : State} (h : Pending.has pick s.arbPending = true) :
    (∃ w, Pending.lookup pick s.arbPending = some (.transact w) ∧ grant pick s = grantTransact pick w s) ∨
    (∃ ws, Pending.lookup pick s.arbPending = some (.transactMany ws) ∧ grant pick s = grantMany pick ws s) ∨
    (∃ r, Pending.lookup pick s.arbPending = some (.regRead32 r) ∧ grant pick s = grantReg pick s) := by
  unfold Pending.has at h
  unfold grant
  cases hq : Pending.lookup pick s.arbPending with
  | none => simp [hq] at h
  | some q => cases q <;> simp

end Sys2Proof.Machine
end

