-- ==== Sys2Proof/Laws/PerInstr.lean ====
section
/-! SUPPORT. A property of every instruction as syntax, one lemma per constructor. -/

namespace Sys2Proof.Laws.EncodesToItsRow

/-- The encoding of a well-formed instruction shows the fixed bits of its own row of the opcode table. -/
def Statement (i : Instr) : Prop :=
  ∀ b : Config.Build, i.wellFormed b = true →
    ∃ r, opcodeRows[i.rowIndex]? = some r ∧ r.covers (encode i) = true

theorem spiWrite (addr : ChipAddr) (value : Half) : Statement (.spiWrite addr value) := by
  refine fun _ _ => ⟨_, rfl, ?_⟩
  simp only [encode, OpcodeRow.covers, Bool.not_false, Bool.true_and, beq_iff_eq]
  apply BitVec.eq_of_getLsbD_eq
  intro i hi
  rw [BitVec.getLsbD_and, getLsbD_pack_write]
  have hm : ∀ i < 32, (0x80000000 : Word).getLsbD i = decide (i = 31) := by decide
  rw [hm i hi]
  by_cases h : i = 31
  · subst h; simp
  · simp [h]

theorem spiRead (addr : ChipAddr) : Statement (.spiRead addr) := by
  refine fun _ _ => ⟨_, rfl, ?_⟩
  simp only [encode, OpcodeRow.covers, Bool.not_false, Bool.true_and, beq_iff_eq]
  apply BitVec.eq_of_getLsbD_eq
  intro i hi
  rw [BitVec.getLsbD_and, getLsbD_pack_read]
  have hm : ∀ i < 32, (0x80000000 : Word).getLsbD i = decide (i = 31) := by decide
  rw [hm i hi]
  by_cases h : i = 31
  · subst h; simp
  · simp [h]

theorem encodeWrite (addr value : Word) : Statement (.encodeWrite addr value) :=
  fun _ _ => ⟨_, rfl, by simp [encode, OpcodeRow.covers]⟩

theorem encodeRead (addr : Word) : Statement (.encodeRead addr) :=
  fun _ _ => ⟨_, rfl, by simp [encode, OpcodeRow.covers]⟩

theorem decode (word : Word) : Statement (.decode word) := fun _ _ => ⟨_, rfl, by simp [encode, OpcodeRow.covers]⟩

theorem transact (word : Word) : Statement (.transact word) := fun _ _ => ⟨_, rfl, by simp [encode, OpcodeRow.covers]⟩

theorem transactMany (words : List Word) : Statement (.transactMany words) :=
  fun _ _ => ⟨_, rfl, by simp [encode, OpcodeRow.covers]⟩

theorem tuneCgen (freq : Freq) (cands : List Word) : Statement (.tuneCgen freq cands) :=
  fun _ _ => ⟨_, rfl, by simp [encode, OpcodeRow.covers]⟩

theorem regRead32 (reg : BitVec 3) : Statement (.regRead32 reg) :=
  fun _ _ => ⟨_, rfl, by simp [encode, OpcodeRow.covers]⟩

theorem clksel (div : Word) : Statement (.clksel div) := fun _ _ => ⟨_, rfl, by simp [encode, OpcodeRow.covers]⟩

theorem reserved (op : BitVec 4) : Statement (.reserved op) := by
  intro b h
  refine ⟨_, rfl, ?_⟩
  revert h
  simp only [Instr.wellFormed, encode, OpcodeRow.covers]
  revert op
  decide

end Sys2Proof.Laws.EncodesToItsRow
end

