-- ==== Sys2Proof/Laws/Requests.lean ====
section
/-! SUPPORT. Where a client's request stands: the places counted by `heldCount`, and runs of several steps. -/

namespace Sys2Proof.Machine

/-- Whether a client has a request outstanding depends on the four places a request can stand in. -/
theorem outstanding_congr {c : ClientId} {s t : State} (ha : t.arbPending = s.arbPending)
    (hp : t.tunePending = s.tunePending) (ho : t.seq.owner = s.seq.owner) (ht : t.tune.owner = s.tune.owner) :
    outstanding c t = outstanding c s := by
  simp only [outstanding, ha, hp, ho, ht]

/-- Whether the RF control library waits for a request of its own depends on three of those places. -/
theorem rflibBusy_congr {s t : State} (hc : t.cfg = s.cfg) (ha : t.arbPending = s.arbPending)
    (hp : t.tunePending = s.tunePending) (ho : t.seq.owner = s.seq.owner) : rflibBusy t = rflibBusy s := by
  simp only [rflibBusy, rflibSelfWait, hc, ha, hp, ho]

/-- A client with nothing outstanding is held nowhere. -/
theorem heldCount_eq_zero {c : ClientId} {s : State} (h : outstanding c s = false) : heldCount c s = 0 := by
  simp only [outstanding, Bool.or_eq_false_iff, decide_eq_false_iff_not] at h
  simp [heldCount, h]

/-- A step that moves a client into none of the four places does not raise its count. -/
theorem heldCount_le {c : ClientId} {s t : State}
    (ha : Pending.has c t.arbPending = true → Pending.has c s.arbPending = true)
    (hp : Pending.has c t.tunePending = true → Pending.has c s.tunePending = true)
    (ho : t.seq.owner = some c → s.seq.owner = some c) (ht : t.tune.owner = some c → s.tune.owner = some c) :
    heldCount c t ≤ heldCount c s := by
  unfold heldCount
  split_ifs <;> simp_all

/-- A client whose bus request waits is held nowhere else. -/
theorem only_in_arbPending {c : ClientId} {s : State} (h : heldCount c s ≤ 1)
    (hc : Pending.has c s.arbPending = true) :
    Pending.has c s.tunePending = false ∧ s.seq.owner ≠ some c ∧ s.tune.owner ≠ some c := by
  unfold heldCount at h
  rw [if_pos hc] at h
  refine ⟨?_, fun ho => ?_, fun ho => ?_⟩
  · by_contra hp
    rw [if_pos (by simpa using hp)] at h
    omega
  · rw [if_pos (c := s.seq.owner = _) ho] at h
    omega
  · rw [if_pos (c := s.tune.owner = _) ho] at h
    omega

/-- A client whose TUNE_CGEN waits is held nowhere else. -/
theorem only_in_tunePending {c : ClientId} {s : State} (h : heldCount c s ≤ 1)
    (hc : Pending.has c s.tunePending = true) :
    Pending.has c s.arbPending = false ∧ s.seq.owner ≠ some c ∧ s.tune.owner ≠ some c := by
  unfold heldCount at h
  rw [if_pos hc] at h
  refine ⟨?_, fun ho => ?_, fun ho => ?_⟩
  · by_contra hp
    rw [if_pos (by simpa using hp)] at h
    omega
  · rw [if_pos (c := s.seq.owner = _) ho] at h
    omega
  · rw [if_pos (c := s.tune.owner = _) ho] at h
    omega

/-- A request found in a waiting set is waiting. -/
theorem has_of_lookup {α : Type} {c : ClientId} {l : List (ClientId × α)} {a : α}
    (h : Pending.lookup c l = some a) : Pending.has c l = true := by
  simp [Pending.has, h]

/-- A run whose first step answers `u` goes on from `u`. -/
theorem run_succ {s u : State} {k : Nat} (h : step s = .next u) :
    Host.Core.run Sys2Proof.core (k + 1) s = Host.Core.run Sys2Proof.core k u := by
  simp only [Host.Core.run]
  rw [show Sys2Proof.core.step s = .next u from h]

/-- A run of `j` steps and then `k` more. -/
theorem run_add {s u : State} {j k : Nat} (h : Host.Core.run Sys2Proof.core j s = .next u) :
    Host.Core.run Sys2Proof.core (j + k) s = Host.Core.run Sys2Proof.core k u := by
  induction j generalizing s with
  | zero => simp only [Host.Core.run] at h; cases h; rw [Nat.zero_add]
  | succ j ih =>
    rw [Nat.add_right_comm]
    simp only [Host.Core.run] at h ⊢
    split at h
    · exact ih h
    · cases h
    · cases h

/-- A turn of `Seq` in a transaction runs the command in `seq.cmd`. -/
theorem step_seq {s : State} {pick : ClientId} {draw : Word} {cmd : Command} {rest : List Turn}
    (ht : s.turns = .seq pick draw :: rest) (hst : s.seq.st ≠ .idle) (hc : s.seq.cmd = some cmd) :
    step s = exec (Instr.ofCommand cmd) { s with turns := rest, busAnswer := draw } := by
  simp [step, runTurn, ht, takeTurn, seqTurn, hst, seqAccess, hc]

end Sys2Proof.Machine
end

