-- ==== Sys2Proof/Laws/Step.lean ====
section
/-! SUPPORT. What a step can do, once: every move of every agent. -/

namespace Sys2Proof.Machine

/-- The moves of the machine: what the agent of each turn can do to the state. -/
inductive Moves (s : State) : Turn → State → Prop
  /-- No enabled step. -/
  | hold (turn : Turn) (hn : turn.isReset = false) : Moves s turn s
  /-- A request answered at its presentation. -/
  | answer (c : ClientId) (r : Result) (rest : List PortLine) (hc : clientExists s.cfg c = true)
      (ho : outstanding c s = false) (hr : r.code ≠ .transactionTimeout) (hd : r.code ≠ .ok → r.data = .none) :
      Moves s (.client c) (deliver c r { s with portClient := c, port := rest })
  /-- A bus request accepted (rule R182). -/
  | accept (c : ClientId) (q : BusRequest) (rest : List PortLine) (hc : clientExists s.cfg c = true)
      (ho : outstanding c s = false) (hq : q.lawful s.cfg = true) :
      Moves s (.client c) (acceptBus q { s with portClient := c, port := rest })
  /-- A TUNE_CGEN that waits (rule R162). -/
  | tuneWait (c : ClientId) (q : TuneRequest) (rest : List PortLine) (hc : clientExists s.cfg c = true)
      (ho : outstanding c s = false) (hq : q.lawful s.cfg = true) (hs : s.tune.st = .searching) :
      Moves s (.client c)
        { s with portClient := c, port := rest, tunePending := Pending.insert c q s.tunePending }
  /-- A TUNE_CGEN that starts at its presentation (rule R162). -/
  | tuneBegin (c : ClientId) (q : TuneRequest) (rest : List PortLine) (t : State)
      (hc : clientExists s.cfg c = true) (ho : outstanding c s = false) (hq : q.lawful s.cfg = true)
      (hs : s.tune.st ≠ .searching)
      (hb : beginTune c q.freq q.cands { s with portClient := c, port := rest } = .next t) :
      Moves s (.client c) t
  /-- A grant (rule R181). -/
  | grant (pick : ClientId) (draw : Word) (h : grantEnabled pick s = true) :
      Moves s (.seq pick draw) (grant pick { s with busAnswer := draw })
  /-- A register access of the transaction in progress (rules R133 to R137). -/
  | access (pick : ClientId) (draw : Word) (cmd : Command) (t : State) (hcmd : s.seq.cmd = some cmd)
      (h : Accesses cmd { s with busAnswer := draw } t) : Moves s (.seq pick draw) t
  /-- A waiting TUNE_CGEN that starts (rule R162). -/
  | tunerStart (pick : ClientId) (q : TuneRequest) (t : State) (hs : s.tune.st ≠ .searching)
      (hq : Pending.lookup pick s.tunePending = some q)
      (hb : beginTune pick q.freq q.cands { s with tunePending := Pending.erase pick s.tunePending } = .next t) :
      Moves s (.tuner pick) t
  /-- An answer of the RF control library (rules R165 and R166). -/
  | rflib (answer : TuneResult) (t : State) (h : tuneAnswer answer s = .next t) : Moves s (.rflib answer) t
  /-- A transfer the block no longer follows ends (rules R235 and R242). -/
  | bridge (h : s.seq.st ≠ .poll) : Moves s .bridge (freeSlot s)
  /-- Reset asserted (rule R231), with the draw of the slot (rule R29). -/
  | reset (slot : BridgeSlot) : Moves s (.reset slot) (assertReset slot s)

/-- A presented request that answers a next state is a move of its client. -/
theorem present_moves {c : ClientId} {d : Descriptor} {rest : List PortLine} {s t : State}
    (hc : clientExists s.cfg c = true) (ho : outstanding c s = false)
    (hst : ∀ a v, decodeRequest d ≠ .ok (.spiWrite a v)) (hst' : ∀ a, decodeRequest d ≠ .ok (.spiRead a))
    (h : present c d rest s = .next t) : Moves s (.client c) t := by
  unfold present at h
  split at h
  · cases h
  · rename_i i hi
    cases i with
    | spiWrite a v => exact absurd hi (hst a v)
    | spiRead a => exact absurd hi (hst' a)
    | encodeWrite a v =>
      simp only [exec, execEncodeWrite] at h
      split at h <;> (cases h; exact .answer c _ rest hc ho (by simp [okResult]) (by simp [okResult]))
    | encodeRead a =>
      simp only [exec, execEncodeRead] at h
      split at h <;> (cases h; exact .answer c _ rest hc ho (by simp [okResult]) (by simp [okResult]))
    | decode w =>
      simp only [exec, execDecode] at h
      cases h; exact .answer c _ rest hc ho (by simp [okResult]) (by simp [okResult])
    | transact w =>
      simp only [exec, execTransact] at h
      cases h; exact .accept c _ rest hc ho rfl
    | transactMany ws =>
      simp only [exec, execTransactMany] at h
      split at h
      · cases h; exact .accept c _ rest hc ho ‹_›
      · cases h
    | tuneCgen f ds =>
      simp only [exec, execTuneCgen] at h
      split at h
      · cases h
      · split at h
        · cases h
        · rename_i hp hf
          have hq : TuneRequest.lawful s.cfg ⟨f, ds⟩ = true := by
            simp only [Bool.not_eq_true', Bool.not_eq_false] at hp hf
            simp [TuneRequest.lawful, hp, hf]
          split at h
          · cases h; exact .tuneWait c ⟨f, ds⟩ rest hc ho hq ‹_›
          · exact .tuneBegin c ⟨f, ds⟩ rest t hc ho hq ‹_› h
    | regRead32 r =>
      simp only [exec, execRegRead32] at h
      split at h
      · cases h; exact .accept c _ rest hc ho ‹_›
      · cases h; exact .answer c _ rest hc ho (by simp) (by simp)
    | clksel w =>
      simp only [exec, execClksel] at h
      cases h; exact .answer c _ rest hc ho (by simp [okResult]) (by simp [okResult])
    | reserved op =>
      simp only [exec, execReserved] at h
      cases h; exact .answer c _ rest hc ho (by simp) (by simp)

/-- A descriptor never decodes to an SPI command: those never cross the client port. -/
theorem decodeRequest_not_spi (d : Descriptor) :
    (∀ a v, decodeRequest d ≠ .ok (.spiWrite a v)) ∧ ∀ a, decodeRequest d ≠ .ok (.spiRead a) := by
  constructor <;> intros <;> unfold decodeRequest <;> split <;> try simp
  all_goals (split <;> simp)

/-- Every turn that answers a next state is a move of its agent. -/
theorem takeTurn_moves {turn : Turn} {s t : State} (h : takeTurn turn s = .next t) : Moves s turn t := by
  cases turn with
  | client c =>
    simp only [takeTurn, clientTurn] at h
    split at h
    · cases h
    · split at h
      · cases h; exact .hold _ rfl
      · split at h
        · cases h; exact .hold _ rfl
        · rename_i hc ho _ d rest _
          simp only [Bool.not_eq_true', Bool.not_eq_false] at hc
          simp only [Bool.not_eq_true] at ho
          exact present_moves hc ho (decodeRequest_not_spi d).1 (decodeRequest_not_spi d).2 h
  | seq pick draw =>
    simp only [takeTurn, seqTurn] at h
    split at h
    · split at h
      · cases h; exact .grant pick draw ‹_›
      · cases h; exact .hold _ rfl
    · simp only [seqAccess] at h
      split at h
      · cases h
      · exact .access pick draw _ t ‹_› (accesses_of_exec h)
  | tuner pick =>
    simp only [takeTurn, startPendingTune] at h
    split at h
    · cases h; exact .hold _ rfl
    · split at h
      · cases h; exact .hold _ rfl
      · exact .tunerStart pick _ t ‹_› ‹_› h
  | rflib answer => exact .rflib answer t h
  | bridge =>
    simp only [takeTurn, bridgeTurn] at h
    split at h
    · cases h; exact .hold _ rfl
    · cases h; exact .bridge ‹_›
  | reset slot => cases h; exact .reset slot

/-- Everything a step can do: nothing when no turn is left, else a move of the agent whose turn it is. -/
theorem step_moves {s t : State} (h : step s = .next t) :
    (s.turns = [] ∧ t = s) ∨
    ∃ turn rest, s.turns = turn :: rest ∧ Moves { s with turns := rest } turn t := by
  simp only [step, runTurn] at h
  split at h
  · cases h; exact .inl ⟨‹_›, rfl⟩
  · exact .inr ⟨_, _, ‹_›, takeTurn_moves h⟩

/-- The register access that completes a transaction, with its response: the done read of a Write (rule R135) or the
SPI_MISO read of a Read (rule R137). -/
inductive Completes (s : State) : Response → State → Prop
  | write (a : ChipAddr) (v : Half) (hcmd : s.seq.cmd = some (.write a v)) (h : s.seq.st = .poll)
      (hd : statusDone s.cfg s.busAnswer = true) : Completes s .noPayload (pollRead s)
  | read (a : ChipAddr) (hcmd : s.seq.cmd = some (.read a)) (h : s.seq.st = .rdMiso) :
      Completes s (readResponse s.busAnswer) (regRead .spiMiso s)

/-- The moves of the machine with every next state written out, over the state after the turn is taken from the list:
the one case list every proof about `step` goes through. -/
inductive Effect (s : State) : Turn → State → Prop
  | hold (turn : Turn) (hn : turn.isReset = false) : Effect s turn s
  | answer (c : ClientId) (r : Result) (rest : List PortLine) (hc : clientExists s.cfg c = true)
      (ho : outstanding c s = false) (hr : r.code ≠ .transactionTimeout) (hd : r.code ≠ .ok → r.data = .none) :
      Effect s (.client c) (deliver c r { s with portClient := c, port := rest })
  | accept (c : ClientId) (q : BusRequest) (rest : List PortLine) (hc : clientExists s.cfg c = true)
      (ho : outstanding c s = false) (hq : q.lawful s.cfg = true) :
      Effect s (.client c) (acceptBus q { s with portClient := c, port := rest })
  | tuneWait (c : ClientId) (q : TuneRequest) (rest : List PortLine) (hc : clientExists s.cfg c = true)
      (ho : outstanding c s = false) (hq : q.lawful s.cfg = true) (hs : s.tune.st = .searching) :
      Effect s (.client c)
        { s with portClient := c, port := rest, tunePending := Pending.insert c q s.tunePending }
  | tuneFail (c : ClientId) (q : TuneRequest) (rest : List PortLine) (hc : clientExists s.cfg c = true)
      (ho : outstanding c s = false) (hq : q.lawful s.cfg = true) (hs : s.tune.st ≠ .searching)
      (hb : tuneBudget q.cands = 0) :
      Effect s (.client c) (raiseError c .tuneFailure 0
        { s with portClient := c, port := rest,
                 tune := { tuneStarted c q.freq q.cands s with st := .exhausted, owner := none } })
  | tuneGo (c : ClientId) (q : TuneRequest) (rest : List PortLine) (div : Word)
      (hc : clientExists s.cfg c = true) (ho : outstanding c s = false) (hq : q.lawful s.cfg = true)
      (hs : s.tune.st ≠ .searching) (hb : tuneBudget q.cands ≠ 0) (hd : q.cands[0]? = some div) :
      Effect s (.client c)
        { s with portClient := c, port := rest, calls := s.calls ++ [⟨q.freq, clkCode div⟩],
                 tune := { tuneStarted c q.freq q.cands s with st := .searching, waiting := true,
                                                               attemptsMade := 1 } }
  | grantSingle (pick : ClientId) (draw w : Word) (ho : s.seq.owner = none) (hst : s.seq.st = .idle)
      (hq : Pending.lookup pick s.arbPending = some (.transact w)) :
      Effect s (.seq pick draw) (start (unpack w) (holdGrant pick .single { s with busAnswer := draw }))
  | grantMany (pick : ClientId) (draw w : Word) (ws : List Word) (ho : s.seq.owner = none)
      (hst : s.seq.st = .idle) (hq : Pending.lookup pick s.arbPending = some (.transactMany (w :: ws))) :
      Effect s (.seq pick draw) (start (unpack w)
        { holdGrant pick .many { s with busAnswer := draw } with
            batch := { cmds := batchCommands (w :: ws), idx := 0, resps := [] } })
  | grantEmpty (pick : ClientId) (draw : Word) (ho : s.seq.owner = none) (hst : s.seq.st = .idle)
      (hq : Pending.lookup pick s.arbPending = some (.transactMany [])) :
      Effect s (.seq pick draw) (release (deliver pick (okResult (.responses []))
        { holdGrant pick .many { s with busAnswer := draw } with
            batch := { cmds := [], idx := 0, resps := [] } }))
  | grantReg (pick : ClientId) (draw : Word) (reg : BitVec 3) (ho : s.seq.owner = none) (hst : s.seq.st = .idle)
      (hq : Pending.lookup pick s.arbPending = some (.regRead32 reg)) :
      Effect s (.seq pick draw) (release (deliver pick (okResult (.word draw))
        (regRead .ctrlScratch (holdGrant pick .reg { s with busAnswer := draw }))))
  | wrMosi (pick : ClientId) (draw : Word) (cmd : Command) (hcmd : s.seq.cmd = some cmd)
      (h : s.seq.st = .wrMosi) :
      Effect s (.seq pick draw)
        { regWrite .spiMosi (pack cmd) { s with busAnswer := draw } with seq := { s.seq with st := .wrCtrl } }
  | wrCtrl (pick : ClientId) (draw : Word) (cmd : Command) (hcmd : s.seq.cmd = some cmd)
      (h : s.seq.st = .wrCtrl) :
      Effect s (.seq pick draw)
        { regWrite .spiControl s.cfg.ctrlStartWord { s with busAnswer := draw } with
            seq := { s.seq with st := .poll } }
  | pollAgain (pick : ClientId) (draw : Word) (cmd : Command) (hcmd : s.seq.cmd = some cmd)
      (h : s.seq.st = .poll) (hd : statusDone s.cfg draw = false)
      (hl : s.cfg.pollLimit ≠ some (s.seq.polls + 1)) :
      Effect s (.seq pick draw) (pollRead { s with busAnswer := draw })
  | timeoutSingle (pick : ClientId) (draw : Word) (c : ClientId) (h : s.seq.st = .poll)
      (hd : statusDone s.cfg draw = false) (hl : s.cfg.pollLimit = some (s.seq.polls + 1))
      (hm : s.seq.mode = some .single) (ho : s.seq.owner = some c) :
      Effect s (.seq pick draw) (release (raiseError c .transactionTimeout 0
        (endTransaction (setTimeoutSeen (pollRead { s with busAnswer := draw })))))
  | timeoutMany (pick : ClientId) (draw : Word) (c : ClientId) (h : s.seq.st = .poll)
      (hd : statusDone s.cfg draw = false) (hl : s.cfg.pollLimit = some (s.seq.polls + 1))
      (hm : s.seq.mode = some .many) (ho : s.seq.owner = some c) :
      Effect s (.seq pick draw) (release (raiseError c .transactionTimeout (BitVec.ofNat 32 s.batch.idx)
        (endTransaction (setTimeoutSeen (pollRead { s with busAnswer := draw })))))
  | readDone (pick : ClientId) (draw : Word) (a : ChipAddr) (hcmd : s.seq.cmd = some (.read a))
      (h : s.seq.st = .poll) (hd : statusDone s.cfg draw = true) :
      Effect s (.seq pick draw)
        { pollRead { s with busAnswer := draw } with
            seq := { s.seq with polls := s.seq.polls + 1, st := .rdMiso } }
  | doneSingle (pick : ClientId) (draw : Word) (c : ClientId) (r : Response) (u : State)
      (hc : Completes { s with busAnswer := draw } r u) (hm : s.seq.mode = some .single)
      (ho : s.seq.owner = some c) :
      Effect s (.seq pick draw) (release (deliver c (okResult (.response r)) (endTransaction u)))
  | doneLast (pick : ClientId) (draw : Word) (c : ClientId) (r : Response) (u : State)
      (hc : Completes { s with busAnswer := draw } r u) (hm : s.seq.mode = some .many)
      (ho : s.seq.owner = some c) (hl : s.batch.idx + 1 = s.batch.cmds.length) :
      Effect s (.seq pick draw) (release (deliver c (okResult (.responses (s.batch.resps ++ [r])))
        (collect r (endTransaction u))))
  | doneNext (pick : ClientId) (draw : Word) (c : ClientId) (r : Response) (u : State) (cmd : Command)
      (hc : Completes { s with busAnswer := draw } r u) (hm : s.seq.mode = some .many)
      (ho : s.seq.owner = some c) (hn : s.batch.cmds[s.batch.idx + 1]? = some cmd) :
      Effect s (.seq pick draw) (start cmd (collect r (endTransaction u)))
  | waitFail (pick : ClientId) (q : TuneRequest) (hs : s.tune.st ≠ .searching)
      (hq : Pending.lookup pick s.tunePending = some q) (hb : tuneBudget q.cands = 0) :
      Effect s (.tuner pick) (raiseError pick .tuneFailure 0
        { s with tunePending := Pending.erase pick s.tunePending,
                 tune := { tuneStarted pick q.freq q.cands s with st := .exhausted, owner := none } })
  | waitGo (pick : ClientId) (q : TuneRequest) (div : Word) (hs : s.tune.st ≠ .searching)
      (hq : Pending.lookup pick s.tunePending = some q) (hb : tuneBudget q.cands ≠ 0)
      (hd : q.cands[0]? = some div) :
      Effect s (.tuner pick)
        { s with tunePending := Pending.erase pick s.tunePending,
                 calls := s.calls ++ [⟨q.freq, clkCode div⟩],
                 tune := { tuneStarted pick q.freq q.cands s with st := .searching, waiting := true,
                                                                  attemptsMade := 1 } }
  | attemptOk (c : ClientId) (hw : s.tune.waiting = true) (hr : rflibBusy s = false)
      (ho : s.tune.owner = some c) :
      Effect s (.rflib .ok) (deliver c ⟨.ok, BitVec.ofNat 32 s.tune.attemptsMade, .none⟩
        { s with tune := { s.tune with waiting := false, st := .succeeded, owner := none } })
  | attemptLast (c : ClientId) (hw : s.tune.waiting = true) (hr : rflibBusy s = false)
      (ho : s.tune.owner = some c) (hl : s.tune.idx + 1 = s.tune.budget) :
      Effect s (.rflib .err) (raiseError c .tuneFailure (BitVec.ofNat 32 s.tune.budget)
        { s with tune := { s.tune with waiting := false, st := .exhausted, owner := none } })
  | attemptNext (div : Word) (f : Freq) (hw : s.tune.waiting = true) (hr : rflibBusy s = false)
      (hl : s.tune.idx + 1 ≠ s.tune.budget) (hd : s.tune.cands[s.tune.idx + 1]? = some div)
      (hf : s.tune.freq = some f) :
      Effect s (.rflib .err)
        { s with calls := s.calls ++ [⟨f, clkCode div⟩],
                 tune := { s.tune with waiting := true, idx := s.tune.idx + 1,
                                       attemptsMade := s.tune.idx + 2 } }
  | bridge (h : s.seq.st ≠ .poll) : Effect s .bridge (freeSlot s)
  | reset (slot : BridgeSlot) : Effect s (.reset slot) (assertReset slot s)

/-- A completed transaction has one of the three effects of rules R138 and R142. -/
theorem effect_of_complete {s t u : State} {r : Response} {pick : ClientId} {draw : Word}
    (hc : Completes { s with busAnswer := draw } r u) (h : complete r u = .next t) :
    Effect s (.seq pick draw) t := by
  have e : u.seq.mode = s.seq.mode ∧ u.seq.owner = s.seq.owner ∧ u.batch = s.batch := by
    cases hc <;> exact ⟨rfl, rfl, rfl⟩
  obtain ⟨em, eo, eb⟩ := e
  rcases complete_cases h with ⟨c, hm, ho, rfl⟩ | ⟨c, hm, ho, hl, rfl⟩ | ⟨c, cmd, hm, ho, hn, rfl⟩
  · exact .doneSingle pick draw c r u hc (em ▸ hm) (eo ▸ ho)
  · rw [eb] at hl
    rw [eb]
    exact .doneLast pick draw c r u hc (em ▸ hm) (eo ▸ ho) hl
  · rw [eb] at hn
    exact .doneNext pick draw c r u cmd hc (em ▸ hm) (eo ▸ ho) hn

/-- Every move is one of the effects. -/
theorem effect_of_moves {s t : State} {turn : Turn} (h : Moves s turn t) : Effect s turn t := by
  cases h with
  | hold turn hn => exact .hold _ hn
  | answer c r rest hc ho hr hd => exact .answer c r rest hc ho hr hd
  | accept c q rest hc ho hq => exact .accept c q rest hc ho hq
  | tuneWait c q rest hc ho hq hs => exact .tuneWait c q rest hc ho hq hs
  | tuneBegin c q rest t hc ho hq hs hb =>
    rcases beginTune_cases hb with ⟨hz, rfl⟩ | ⟨div, hz, hd, rfl⟩
    · exact .tuneFail c q rest hc ho hq hs hz
    · exact .tuneGo c q rest div hc ho hq hs hz hd
  | grant pick draw hg =>
    simp only [grantEnabled, Bool.and_eq_true, decide_eq_true_eq] at hg
    obtain ⟨⟨ho, hst⟩, hp⟩ := hg
    rcases grant_cases (s := { s with busAnswer := draw }) hp with ⟨w, hq, e⟩ | ⟨ws, hq, e⟩ | ⟨reg, hq, e⟩
    · rw [e]; exact .grantSingle pick draw w ho hst hq
    · rw [e]
      cases ws with
      | nil => exact .grantEmpty pick draw ho hst hq
      | cons w ws => exact .grantMany pick draw w ws ho hst hq
    · rw [e]; exact .grantReg pick draw reg ho hst hq
  | access pick draw cmd t hcmd ha =>
    cases ha with
    | wrMosi h => exact .wrMosi pick draw cmd hcmd h
    | wrCtrl h => exact .wrCtrl pick draw cmd hcmd h
    | pollAgain h hd hl => exact .pollAgain pick draw cmd hcmd h hd hl
    | timeout t h hd hl hf =>
      rcases fail_cases hf with ⟨c, hm, ho, rfl⟩ | ⟨c, hm, ho, rfl⟩
      · exact .timeoutSingle pick draw c h hd hl hm ho
      · exact .timeoutMany pick draw c h hd hl hm ho
    | writeDone t a v he h hd hc =>
      subst he
      exact effect_of_complete (.write a v hcmd h hd) hc
    | readDone a he h hd =>
      subst he
      exact .readDone pick draw a hcmd h hd
    | rdMiso t a he h hc =>
      subst he
      exact effect_of_complete (.read a hcmd h) hc
  | tunerStart pick q t hs hq hb =>
    rcases beginTune_cases hb with ⟨hz, rfl⟩ | ⟨div, hz, hd, rfl⟩
    · exact .waitFail pick q hs hq hz
    · exact .waitGo pick q div hs hq hz hd
  | rflib answer t h =>
    rcases tuneAnswer_cases h with ⟨_, rfl⟩ | ⟨hw, hr, ⟨c, rfl, ho, rfl⟩ | ⟨c, rfl, ho, hl, rfl⟩ |
      ⟨div, f, rfl, hl, hd, hf, rfl⟩⟩
    · exact .hold _ rfl
    · exact .attemptOk c hw hr ho
    · exact .attemptLast c hw hr ho hl
    · exact .attemptNext div f hw hr hl hd hf
  | bridge h => exact .bridge h
  | reset slot => exact .reset slot

/-- Everything a step can do, each next state written out. -/
theorem step_cases {s t : State} (h : step s = .next t) :
    (s.turns = [] ∧ t = s) ∨
    ∃ turn rest, s.turns = turn :: rest ∧ Effect { s with turns := rest } turn t := by
  rcases step_moves h with h | ⟨turn, rest, ht, hm⟩
  · exact .inl h
  · exact .inr ⟨turn, rest, ht, effect_of_moves hm⟩

/-- The next line of `c` is its first in the port, and the other lines stay in order. -/
theorem takeLine_spec (c : ClientId) (d : Descriptor) (pre post : List PortLine) (h : ∀ l ∈ pre, l.client ≠ c) :
    takeLine c (pre ++ ⟨c, d⟩ :: post) = some (d, pre ++ post) := by
  induction pre with
  | nil => simp [takeLine]
  | cons l t ih =>
    have hl := h l (by simp)
    simp [takeLine, hl, ih fun x hx => h x (by simp [hx])]

end Sys2Proof.Machine
end

