-- ==== Sys2Proof/Tests/Slice0.lean ====
section
/-! SUPPORT. Tests of the model against the spec's encodings (`30_encoding.md`), its vectors (`95_test_vectors.md`) and
its rules, and for every obligation with hypotheses a named witness that meets them. -/

namespace Sys2Proof.Tests

open Sys2Proof.Machine

/-! ### A small block -/

/-- A build with `P_POLL_LIMIT = 2` (vectors M3 and M5) and the done flag in bit 0. -/
def build : Config.Build :=
  { pollLimit := some 2, statusDoneMask := 1, ctrlStartWord := 0x1234, rflibClient := 1, batchMax := 3,
    candMax := 50 }

/-- The same build, unbounded. -/
def openBuild : Config.Build :=
  { statusDoneMask := 1, ctrlStartWord := 0x1234, rflibClient := 1, batchMax := 3, candMax := 50 }

def bridge : Bridge := ⟨.idle, 0, 0, 0, 0, 0⟩

def busyBridge : Bridge := ⟨.busy, 0, 0, 0, 0, 0⟩

/-- The block right after reset. -/
def s0 : State := State.resetWith build bridge

/-- A frequency that is positive, and one that is not. -/
def f : Freq := ⟨true, 801⟩

def f0 : Freq := ⟨false, 0⟩

/-- In a transaction of `cmd` granted to client 0, at `st` after `polls` STATUS reads, the bridge answering `w`. -/
def inTx (st : SeqSt) (mode : SeqMode) (cmd : Command) (polls : Nat) (w : Word) : State :=
  { s0 with seq := ⟨st, some cmd, polls, some 0, some mode⟩, bridge := busyBridge, busAnswer := w }

/-- In a batch of a Write and a Read granted to client 0, running the command at `idx`. -/
def inBatch (st : SeqSt) (idx : Nat) (cmd : Command) (resps : List Response) (w : Word) : State :=
  { inTx st .many cmd 0 w with batch := ⟨[.write 1 2, .read 3], idx, resps⟩ }

/-- Client 0's TUNE_CGEN in progress, at attempt `idx`. -/
def inTune (idx : Nat) (cands : List Word) : State :=
  { s0 with tune := ⟨.searching, idx, some 0, some f, cands, tuneBudget cands, true, idx + 1⟩ }

/-- Client 0's `q` waits for a grant. -/
def waiting (q : BusRequest) (turns : List Turn) : State := { s0 with arbPending := [(0, q)], turns := turns }

/-- The result an outcome delivers last. -/
def lastResult : Out → Option Result
  | .next t => t.results.getLast?.map (·.result)
  | _ => none

/-- What an outcome's state shows. -/
def see {α : Type} (g : State → α) : Out → Option α
  | .next t => some (g t)
  | _ => none

/-! ### Decoding, from words written out bit by bit (rules R81, R95 and R97) -/

/-- tag 1, addr 000000000100000, payload 1111111111111101. -/
theorem test_decode_spi_write :
    decode (.cmd32 0b1_000000000100000_1111111111111101#32) = .ok (.spiWrite 0x0020 0xFFFD) := by decide

/-- tag 0, addr 000000000101111, payload ignored (rule R87). -/
theorem test_decode_spi_read :
    decode (.cmd32 0b0_000000000101111_0001001000110100#32) = .ok (.spiRead 0x002F) := by decide

theorem test_decode_encode_write :
    decode (.req ⟨0b0000#4, [.word 0x20, .word 0xFFFD]⟩) = .ok (.encodeWrite 0x20 0xFFFD) := by decide

theorem test_decode_encode_read : decode (.req ⟨0b0001#4, [.word 0x2F]⟩) = .ok (.encodeRead 0x2F) := by decide

theorem test_decode_decode : decode (.req ⟨0b0010#4, [.word 0x8020FFFD]⟩) = .ok (.decode 0x8020FFFD) := by decide

theorem test_decode_transact : decode (.req ⟨0b0011#4, [.word 0x2F0000]⟩) = .ok (.transact 0x2F0000) := by decide

theorem test_decode_transact_many : decode (.req ⟨0b0100#4, [.words [5, 6]]⟩) = .ok (.transactMany [5, 6]) := by
  decide

theorem test_decode_tune_cgen :
    decode (.req ⟨0b0101#4, [.freq f, .words [2, 2]]⟩) = .ok (.tuneCgen f [2, 2]) := by decide

theorem test_decode_reg_read32 : decode (.req ⟨0b0110#4, [.reg 4]⟩) = .ok (.regRead32 4) := by decide

theorem test_decode_clksel : decode (.req ⟨0b0111#4, [.word 4]⟩) = .ok (.clksel 4) := by decide

/-- The lowest and the highest reserved op code. -/
theorem test_decode_reserved :
    decode (.req ⟨0b1000#4, []⟩) = .ok (.reserved 8) ∧ decode (.req ⟨0b1111#4, [.word 1]⟩) = .ok (.reserved 15) := by
  decide

/-- Operands of another op code are refused by name. -/
theorem test_decode_mismatch : decode (.req ⟨0b0110#4, [.word 4]⟩) = .error (.operandMismatch 6) := by decide

/-- The table's words: 32-bit rows are command words, the others op codes with zero operands. -/
theorem test_decode_table_words :
    decodeTableWord 32 0x80000000 = some (.spiWrite 0 0) ∧ decodeTableWord 32 0 = some (.spiRead 0) ∧
    decodeTableWord 8 0 = some (.encodeWrite 0 0) ∧ decodeTableWord 8 4 = some (.transactMany []) ∧
    decodeTableWord 8 8 = some (.reserved 8) := by decide

/-! ### WellFormed refuses each ill-formed term -/

theorem test_wellFormed_batch_too_long : (Instr.transactMany [0, 0, 0, 0]).wellFormed build = false := by decide

theorem test_wellFormed_batch_bound : (Instr.transactMany [0, 0, 0]).wellFormed build = true := by decide

theorem test_wellFormed_freq_not_positive : (Instr.tuneCgen f0 [2]).wellFormed build = false := by decide

theorem test_wellFormed_cands_too_long :
    (Instr.tuneCgen f (List.replicate 51 2)).wellFormed build = false := by decide

theorem test_wellFormed_op_not_reserved : (Instr.reserved 7).wellFormed build = false := by decide

/-! ### The codec (vectors E1 to E39) -/

/-- E2 and E3. -/
theorem test_encode_write :
    lastResult (exec (.encodeWrite 0x7FFF 0xFFFF) s0) = some ⟨.ok, 0, .word 0xFFFFFFFF⟩ ∧
    lastResult (exec (.encodeWrite 0x20 0xFFFD) s0) = some ⟨.ok, 0, .word 0x8020FFFD⟩ := by decide

/-- E10 and E11: both causes, and no truncation. -/
theorem test_encode_write_violation :
    lastResult (exec (.encodeWrite 0x8000 0x10000) s0) = some ⟨.encodingViolation, 3, .none⟩ ∧
    lastResult (exec (.encodeWrite 0x00010005 1) s0) = some ⟨.encodingViolation, 1, .none⟩ := by decide

/-- E22 and E24. -/
theorem test_encode_read :
    lastResult (exec (.encodeRead 0x2F) s0) = some ⟨.ok, 0, .word 0x002F0000⟩ ∧
    lastResult (exec (.encodeRead 0x8000) s0) = some ⟨.encodingViolation, 1, .none⟩ := by decide

/-- E32 and E37. -/
theorem test_decode_request :
    lastResult (exec (.decode 0x002F1234) s0) = some ⟨.ok, 0, .fields 0 0x2F 0⟩ ∧
    lastResult (exec (.decode 0x9234ABCD) s0) = some ⟨.ok, 0, .fields 1 0x1234 0xABCD⟩ := by decide

/-- The round trips of section 2 of the vectors. -/
theorem test_canonical_words :
    pack (unpack 0x002F1234) = 0x002F0000 ∧ pack (unpack 0x8020FFFD) = 0x8020FFFD ∧
    pack (unpack 0x12345678) = 0x12340000 := by decide

/-- K1 and K2. -/
theorem test_clksel :
    [1, 2, 4, 3, 7, 0, 8].map (fun d : Word => lastResult (exec (.clksel d) s0)) =
      [0, 1, 2, 3, 3, 3, 3].map (fun c : ClkCode => some ⟨.ok, 0, .code c⟩) := by decide

/-- A7 and A8. -/
theorem test_reserved :
    lastResult (exec (.reserved 8) s0) = some ⟨.illegalRequest, 8, .none⟩ ∧
    lastResult (exec (.reserved 15) s0) = some ⟨.illegalRequest, 15, .none⟩ := by decide

/-! ### The sequencer (vectors T2, T3, T6, T7, M2, M3) -/

/-- T10: the word written is canonical. -/
theorem test_mosi_write :
    see State.bus (exec (.spiRead 0x2F) (inTx .wrMosi .single (unpack 0x002F1234) 0 0)) =
      some [⟨some 0, .write, .spiMosi, 0x002F0000⟩] := by decide

/-- T11: only the masked bit counts. -/
theorem test_poll_mask :
    see (fun t => (t.seq.st, t.seq.polls)) (exec (.spiWrite 1 2) (inTx .poll .single (.write 1 2) 0 0xFFFFFFFE)) =
      some (.poll, 1) ∧
    lastResult (exec (.spiWrite 1 2) (inTx .poll .single (.write 1 2) 0 0x80000003)) =
      some ⟨.ok, 0, .response .noPayload⟩ := by decide

/-- T3: the upper half of SPI_MISO is masked off, and the grant is released. -/
theorem test_miso_read :
    lastResult (exec (.spiRead 0x2F) (inTx .rdMiso .single (.read 0x2F) 1 0xABCD1234)) =
      some ⟨.ok, 0, .response (.value 0x1234)⟩ ∧
    see stsBusy (exec (.spiRead 0x2F) (inTx .rdMiso .single (.read 0x2F) 1 0xABCD1234)) = some false := by decide

/-- T7: the last allowed read shows not-done. -/
theorem test_poll_timeout :
    lastResult (exec (.spiRead 0x2F) (inTx .poll .single (.read 0x2F) 1 0)) = some ⟨.transactionTimeout, 0, .none⟩ ∧
    see stsTimeoutSeen (exec (.spiRead 0x2F) (inTx .poll .single (.read 0x2F) 1 0)) = some true := by decide

/-- M2: the second command follows, and its end delivers both responses. -/
theorem test_batch :
    see (fun t => (t.seq.st, t.seq.cmd)) (exec (.spiWrite 1 2) (inBatch .poll 0 (.write 1 2) [] 1)) =
      some (.wrMosi, some (.read 3)) ∧
    lastResult (exec (.spiRead 3) (inBatch .rdMiso 1 (.read 3) [.noPayload] 0x0000ABCD)) =
      some ⟨.ok, 0, .responses [.noPayload, .value 0xABCD]⟩ := by decide

/-- M3: a timeout in command 1. -/
theorem test_batch_abort :
    lastResult (exec (.spiRead 3) { inBatch .poll 1 (.read 3) [.noPayload] 0 with
      seq := ⟨.poll, some (.read 3), 1, some 0, some .many⟩ }) = some ⟨.transactionTimeout, 1, .none⟩ := by decide

/-! ### The arbiter (vectors M1, A1, A2, A6) -/

theorem test_transact_waits :
    see State.arbPending (exec (.transact 0x2F0000) s0) = some [(0, .transact 0x2F0000)] := by decide

theorem test_grant_transact :
    see (fun t => (t.seq.st, t.seq.cmd, t.bus)) (step (waiting (.transact 0x2F0000) [.seq 0 0])) =
      some (.wrMosi, some (.read 0x2F), []) := by decide

/-- M1. -/
theorem test_empty_batch :
    lastResult (step (waiting (.transactMany []) [.seq 0 0])) = some ⟨.ok, 0, .responses []⟩ := by decide

/-- A1. -/
theorem test_scratch_read :
    lastResult (step (waiting (.regRead32 4) [.seq 0 0xDEADBEEF])) = some ⟨.ok, 0, .word 0xDEADBEEF⟩ ∧
    see State.bus (step (waiting (.regRead32 4) [.seq 0 0xDEADBEEF])) =
      some [⟨some 0, .read, .ctrlScratch, 0xDEADBEEF⟩] := by decide

/-- A2 and A6. -/
theorem test_reg_read_illegal :
    lastResult (exec (.regRead32 2) s0) = some ⟨.illegalRequest, 0x126, .none⟩ ∧
    lastResult (exec (.regRead32 7) s0) = some ⟨.illegalRequest, 0x176, .none⟩ := by decide

/-! ### The tuner (vectors U3, U4, U6) -/

/-- U6: attempt 0 of the list 8, 2, then attempt 1. -/
theorem test_tune_attempts :
    see State.calls (exec (.tuneCgen f [8, 2]) s0) = some [⟨f, 3⟩] ∧
    see State.calls (step { inTune 0 [8, 2] with turns := [.rflib .err] }) = some [⟨f, 1⟩] := by decide

/-- U3, and the last failure of U4. -/
theorem test_tune_failure :
    lastResult (exec (.tuneCgen f []) s0) = some ⟨.tuneFailure, 0, .none⟩ ∧
    lastResult (step { inTune 4 [1, 2, 4, 3, 7] with turns := [.rflib .err] }) = some ⟨.tuneFailure, 5, .none⟩ := by
  decide

/-- U6: success on attempt 1. -/
theorem test_tune_success :
    lastResult (step { inTune 1 [8, 2] with turns := [.rflib .ok] }) = some ⟨.ok, 2, .none⟩ := by decide

/-- Rule R208: the library does not answer while its own TRANSACT waits, so no access follows a TUNE_FAILURE. -/
theorem test_library_waits_for_its_transact :
    let s : State := { inTune 0 [2] with arbPending := [(1, .transact 0)], turns := [.rflib .err] }
    see id (step s) = some { s with turns := [] } := by decide

/-- Rule R29: the slot at reset is a draw; rule R242: a transfer that a timeout has left in flight may end. -/
theorem test_slot_after_reset_and_timeout :
    see (·.bridge) (step { inTx .poll .single (.read 1) 0 0 with turns := [.reset .idle] }) = some bridge ∧
    see (·.bridge) (step { s0 with timeoutSeen := true, bridge := busyBridge, turns := [.bridge] }) =
      some bridge := by decide

/-- U5: the budget is 40 whatever the list's length above it. -/
theorem test_tune_budget : tuneBudget (List.replicate 50 4) = 40 := by decide

/-! ### The assembler (rules R101 to R103) -/

theorem test_assembler :
    (AsmLine.poke 0x20 0xFFFD).assemble = some (.transact 0x8020FFFD) ∧
    (AsmLine.txm [.wr 0x20 0xFFFD, .rd 0x8000]).assemble = none := by decide

/-- The lines of a program reach the ports of the clients they name (rule R100), by default client 0. -/
theorem test_assemble_program :
    assembleProgram [⟨0, .tx (.rd 0x2F)⟩, ⟨1, .scratch⟩] =
      some [⟨0, ⟨3, [.word 0x002F0000]⟩⟩, ⟨1, ⟨6, [.reg 4]⟩⟩] := by decide

/-! ### Witnesses: a state and operands that meet each obligation's hypotheses, at the ends of each range -/

theorem witness_CommandRoundTripLaws :
    (0x7FFF#32).toNat ≤ 32767 ∧ (0xFFFF#32).toNat ≤ 65535 ∧
    ¬((0x1#32).getLsbD 31 = true ∨ (0x1#32).extractLsb' 0 16 = 0) := by decide

theorem witness_ClkselResult : f.positive = true ∧ s0.tune.st ≠ .searching := by decide

theorem witness_DecodeOfEncodeIsTheInstruction :
    (Instr.transactMany [1, 2, 3]).wellFormed build = true ∧ (Instr.reserved 8).wellFormed build = true := by decide

theorem witness_EncodeOfDecodeIsCanonical :
    decode (.req ⟨8, [.word 1]⟩) = .ok (.reserved 8) ∧ decode (.req ⟨7, [.word 1]⟩) = .ok (.clksel 1) ∧
    decode (.cmd32 0x002F1234) = .ok (.spiRead 0x2F) := by decide

theorem witness_EncodingShowsExactlyItsOwnRow :
    (Instr.reserved 15).wellFormed build = true ∧ opcodeRows[10]? = some ⟨true, 0x8, 0x8⟩ := by decide

/-- Client 1 presents op code 8 behind a line of client 0. -/
theorem witness_ReservedOpIsIllegalRequest :
    let s : State := { s0 with turns := [.client 1], port := [⟨0, ⟨3, [.word 0]⟩⟩, ⟨1, ⟨8, []⟩⟩] }
    s.turns = .client 1 :: [] ∧ s.port = [⟨0, ⟨3, [.word 0]⟩⟩] ++ ⟨1, ⟨8, []⟩⟩ :: [] ∧
    (∀ l ∈ [(⟨0, ⟨3, [.word 0]⟩⟩ : PortLine)], l.client ≠ 1) ∧ 1 < s.cfg.numClients ∧
    outstanding 1 s = false ∧ 8 ≤ (8#4).toNat := by decide

theorem witness_CodecIsIndependentOfTheState :
    (∃ a v, Instr.encodeWrite 1 2 = .encodeWrite a v) ∧ (∃ a, Instr.encodeRead 1 = .encodeRead a) ∧
    (∃ w, Instr.decode 1 = .decode w) ∧ (∃ d, Instr.clksel 1 = .clksel d) ∧
    (∃ op, Instr.reserved 8 = .reserved op) ∧ ∃ r, Instr.regRead32 3 = .regRead32 r ∧ r ≠ 4 :=
  ⟨⟨1, 2, rfl⟩, ⟨1, rfl⟩, ⟨1, rfl⟩, ⟨1, rfl⟩, ⟨8, rfl⟩, ⟨3, rfl, by decide⟩⟩

theorem witness_BusRequestsWaitInArbPending :
    ∃ ws, Instr.transactMany [1, 2, 3] = .transactMany ws ∧
      BusRequest.transactMany [1, 2, 3] = .transactMany ws ∧ ws.length ≤ s0.cfg.batchMax :=
  ⟨_, rfl, rfl, by decide⟩

theorem witness_RegReadOfOtherRegisterIsIllegal : (3#3) ≠ 4 ∧ (5#3) ≠ 4 := by decide

/-- One operand past each bound, and a frequency of each kind. -/
theorem witness_RequestsOutsideTheDomainAreRefused :
    s0.cfg.batchMax < [0#32, 0, 0, 0].length ∧ Config.freqType.positive (Config.freqType.value f0) = false ∧
    Config.freqType.positive (Config.freqType.value f) = true ∧
    s0.cfg.candMax < (List.replicate 51 0#32).length :=
  ⟨by decide, Config.freqType.value_positive f0, Config.freqType.value_positive f, by decide⟩

/-- One state for each clause. -/
theorem witness_GrantServesThePickedRequest :
    let s (q : BusRequest) := waiting q [.seq 0 0]
    ((s (.transact 1)).turns = .seq 0 0 :: [] ∧ (s (.transact 1)).seq.st = .idle ∧
      (s (.transact 1)).seq.owner = none) ∧
    Pending.lookup 0 (s (.transact 1)).arbPending = some (.transact 1) ∧
    Pending.lookup 0 (s (.transactMany [1])).arbPending = some (.transactMany [1]) ∧
    Pending.lookup 0 (s (.regRead32 4)).arbPending = some (.regRead32 4) ∧
    Pending.lookup 1 (s (.transact 1)).arbPending = none := by decide

theorem witness_EmptyBatchEndsAtItsGrant :
    let s := waiting (.transactMany []) [.seq 0 0]
    s.turns = .seq 0 0 :: [] ∧ s.seq.st = .idle ∧ s.seq.owner = none ∧
    Pending.lookup 0 s.arbPending = some (.transactMany []) := by decide

theorem witness_MosiStepWritesThePackedCommand : (inTx .wrMosi .single (.read 1) 0 0).seq.st = .wrMosi := by decide

theorem witness_ControlStepStartsTheTransfer : (inTx .wrCtrl .single (.read 1) 0 0).seq.st = .wrCtrl := by decide

/-- The limit is 2: read 1 polls again, read 2 times out. -/
theorem witness_PollAgainBelowTheLimit :
    let s := inTx .poll .single (.read 1) 0 0
    s.seq.st = .poll ∧ s.busAnswer &&& s.cfg.statusDoneMask = 0 ∧ s.cfg.pollLimit ≠ some (s.seq.polls + 1) := by
  decide

theorem witness_PollTimeoutEndsTransact :
    let s := inTx .poll .single (.read 1) 1 0
    s.seq.st = .poll ∧ s.busAnswer &&& s.cfg.statusDoneMask = 0 ∧ s.cfg.pollLimit = some (s.seq.polls + 1) ∧
    s.seq.mode = some .single ∧ s.seq.owner = some 0 := by decide

theorem witness_PollTimeoutAbortsBatch :
    let s := inTx .poll .many (.read 1) 1 0
    s.seq.st = .poll ∧ s.busAnswer &&& s.cfg.statusDoneMask = 0 ∧ s.cfg.pollLimit = some (s.seq.polls + 1) ∧
    s.seq.mode = some .many ∧ s.seq.owner = some 0 := by decide

theorem witness_DoneCompletesSpiWrite :
    let s := inTx .poll .single (.write 1 2) 0 1
    s.seq.st = .poll ∧ s.busAnswer &&& s.cfg.statusDoneMask ≠ 0 ∧ s.seq.mode = some .single ∧
    s.seq.owner = some 0 := by decide

theorem witness_DoneLeadsSpiReadToMiso :
    let s := inTx .poll .single (.read 1) 0 1
    s.seq.st = .poll ∧ s.busAnswer &&& s.cfg.statusDoneMask ≠ 0 := by decide

theorem witness_MisoCompletesSpiRead :
    let s := inTx .rdMiso .single (.read 1) 1 7
    s.seq.st = .rdMiso ∧ s.seq.mode = some .single ∧ s.seq.owner = some 0 := by decide

/-- The Write at index 0 goes on to the Read at index 1; the Read's end is the batch's. -/
theorem witness_BatchGoesOnOrDelivers :
    (let s := inBatch .poll 0 (.write 1 2) [] 1
     s.seq.mode = some .many ∧ s.seq.owner = some 0 ∧ s.seq.st = .poll ∧
     s.busAnswer &&& s.cfg.statusDoneMask ≠ 0 ∧ s.batch.cmds[s.batch.idx + 1]? = some (.read 3)) ∧
    (let s := inBatch .rdMiso 1 (.read 3) [.noPayload] 7
     s.seq.mode = some .many ∧ s.seq.owner = some 0 ∧ s.seq.st = .rdMiso ∧
     s.batch.idx + 1 = s.batch.cmds.length) := by decide

/-- A Read answered not-done once and then done, within the limit of 2. -/
def transfer : Transfer := ⟨0x002F0000, 0, 0, [0], 1, 0x1234⟩

theorem transfer_completes : transfer.completes build := by
  refine ⟨by simp [transfer, build], by simp [transfer, build], ?_⟩
  rintro n ⟨⟩
  decide

/-- The start of the transfer in a batch of `n` commands, at the last but `n - 1`. -/
def batchStart (n : Nat) (turns : List Turn) : State :=
  { s0 with seq := ⟨.wrMosi, some (unpack transfer.word), 0, some 0, some .many⟩, turns := turns,
            batch := ⟨List.replicate n (unpack transfer.word), 0, []⟩ }

/-- The completing run of a TRANSACT, of a batch's last command and of one with a next; and the run that times out on two
not-done reads, in either mode. -/
theorem witness_TransactionAccessCounts :
    (let s : State := { s0 with seq := seqStarted 0 (unpack transfer.word), turns := seqTurns transfer.draws ++ [] }
     s.seq = ⟨.wrMosi, some (unpack transfer.word), 0, some 0, some .single⟩ ∧ transfer.completes s.cfg ∧
     s.turns = seqTurns transfer.draws ++ []) ∧
    (∀ n ∈ [1, 2],
      let s := batchStart n (seqTurns transfer.draws ++ [])
      s.seq = ⟨.wrMosi, some (unpack transfer.word), 0, some 0, some .many⟩ ∧
      s.batch.idx < s.batch.cmds.length ∧ transfer.completes s.cfg ∧
      (s.batch.idx + 1 = s.batch.cmds.length ∨
        s.batch.cmds[s.batch.idx + 1]? = some (unpack transfer.word))) ∧
    (let x : Transfer := { transfer with notDone := [0, 0] }
     (∀ w ∈ x.notDone, w &&& s0.cfg.statusDoneMask = 0) ∧ s0.cfg.pollLimit = some x.notDone.length) :=
  ⟨⟨rfl, transfer_completes, rfl⟩,
    fun n hn => by
      simp only [List.mem_cons, List.not_mem_nil, or_false] at hn
      rcases hn with rfl | rfl
      · exact ⟨rfl, by decide, transfer_completes, .inl rfl⟩
      · exact ⟨rfl, by decide, transfer_completes, .inr rfl⟩,
    by simp [s0, State.resetWith, build], rfl⟩

theorem witness_TransactRunsToItsResult :
    let s : State := { s0 with turns := .seq 0 0 :: seqTurns transfer.draws ++ [] }
    outstanding s.portClient s = false ∧ s.seq.st = .idle ∧ s.seq.owner = none ∧ transfer.completes s.cfg ∧
    s.turns = .seq s.portClient 0 :: seqTurns transfer.draws ++ [] :=
  ⟨by decide, rfl, rfl, transfer_completes, rfl⟩

theorem witness_RegReadRunsToItsResult :
    let s : State := { s0 with turns := [.seq 0 7] }
    outstanding s.portClient s = false ∧ s.seq.st = .idle ∧ s.seq.owner = none ∧
    s.turns = .seq s.portClient 7 :: [] := by decide

/-- The empty batch, and one as long as the bound. -/
theorem witness_BatchRunsItsTransactionsInOrder :
    let s (xs : List Transfer) : State := { s0 with turns := .seq 0 0 :: seqTurns (xs.flatMap Transfer.draws) ++ [] }
    ∀ xs ∈ [[], [transfer, transfer, transfer]],
      outstanding (s xs).portClient (s xs) = false ∧ (s xs).seq.st = .idle ∧ (s xs).seq.owner = none ∧
      xs.length ≤ (s xs).cfg.batchMax ∧ (∀ x ∈ xs, x.completes (s xs).cfg) ∧
      (s xs).turns = .seq (s xs).portClient 0 :: seqTurns (xs.flatMap Transfer.draws) ++ [] := by
  intro s xs hxs
  refine ⟨rfl, rfl, rfl, ?_, ?_, rfl⟩
  · revert xs; decide
  · simp only [List.mem_cons, List.not_mem_nil, or_false] at hxs
    rcases hxs with rfl | rfl
    · intro x hx; cases hx
    · intro x hx
      simp only [List.mem_cons, List.not_mem_nil, or_false, or_self] at hx
      exact hx ▸ transfer_completes

theorem witness_UnboundedPollHangsOnAStuckBridge :
    let s : State := { inTx .poll .single (.read 1) 0 0 with cfg := openBuild, turns := seqTurns [0, 2] ++ [] }
    s.cfg.pollLimit = none ∧ s.seq.st = .poll ∧ s.seq.cmd = some (.read 1) ∧ s.seq.owner = some 0 ∧
    (∀ w ∈ [0#32, 2], w &&& s.cfg.statusDoneMask = 0) ∧ s.turns = seqTurns [0, 2] ++ [] :=
  ⟨rfl, rfl, rfl, rfl, by simp [openBuild], rfl⟩

theorem witness_TuneWithoutCandidatesFailsAtOnce : f.positive = true ∧ s0.tune.st ≠ .searching := by decide

/-- One candidate, and as many as the bound. -/
theorem witness_TuneStartMakesAttemptZero :
    f.positive = true ∧ [2#32].length ≤ s0.cfg.candMax ∧ (2#32 :: List.replicate 49 2).length ≤ s0.cfg.candMax ∧
    s0.tune.st ≠ .searching := by decide

theorem witness_TuneWaitsWhileAnotherRuns :
    let s := inTune 0 [2]
    f.positive = true ∧ [2#32].length ≤ s.cfg.candMax ∧ s.tune.st = .searching := by decide

/-- A list with a candidate, and the empty one. -/
theorem witness_WaitingTuneStarts :
    let s (cands : List Word) : State := { s0 with tunePending := [(0, ⟨f, cands⟩)], turns := [.tuner 0] }
    ((s [2]).turns = .tuner 0 :: [] ∧ (s [2]).tune.st ≠ .searching ∧
      Pending.lookup 0 (s [2]).tunePending = some ⟨f, [2]⟩) ∧
    ((s []).turns = .tuner 0 :: [] ∧ (s []).tune.st ≠ .searching ∧
      Pending.lookup 0 (s []).tunePending = some ⟨f, []⟩) := by
  decide

theorem witness_AttemptSuccessEndsTheTune :
    let s : State := { inTune 1 [8, 2] with turns := [.rflib .ok] }
    s.turns = .rflib .ok :: [] ∧ s.tune.waiting = true ∧
    rflibBusy s = false ∧ s.tune.owner = some 0 := by decide

/-- The last attempt, and one before it. -/
theorem witness_AttemptFailureTriesTheNextCandidate :
    let s (i : Nat) : State := { inTune i [8, 2] with turns := [.rflib .err] }
    (s 0).turns = .rflib .err :: [] ∧ (s 0).tune.waiting = true ∧
    rflibBusy (s 0) = false ∧ (s 0).tune.owner = some 0 ∧
    (s 1).tune.idx + 1 = (s 1).tune.budget ∧ (s 0).tune.idx + 1 ≠ (s 0).tune.budget ∧
    (s 0).tune.cands[(s 0).tune.idx + 1]? = some 2 ∧ (s 0).tune.freq = some f := by decide

/-- Success on the first and on the last attempt of two, and two failures. -/
theorem witness_AttemptLaws :
    s0.tune.st ≠ .searching ∧ f.positive = true ∧ [8#32, 2].length ≤ s0.cfg.candMax ∧
    rflibBusy s0 = false ∧ 0 < min 40 [8#32, 2].length ∧
    1 < min 40 [8#32, 2].length ∧ 1 ≤ [8#32, 2].length := by decide

/-- A step of the tuner and an answer of the library, each with its next state. -/
theorem witness_TunerHoldsNoGrant :
    (∃ t, step { s0 with tunePending := [(0, ⟨f, [2]⟩)], turns := [.tuner 0] } = .next t) ∧
    ∃ t, step { inTune 1 [8, 2] with turns := [.rflib .ok] } = .next t :=
  ⟨⟨_, rfl⟩, ⟨_, rfl⟩⟩

theorem witness_ClientTurnRunsTheDecodedRequest :
    let s : State := { s0 with turns := [.client 1], port := [⟨0, ⟨3, [.word 0]⟩⟩, ⟨1, ⟨7, [.word 4]⟩⟩] }
    s.turns = .client 1 :: [] ∧ 1 < s.cfg.numClients ∧ outstanding 1 s = false ∧
    s.port = [⟨0, ⟨3, [.word 0]⟩⟩] ++ ⟨1, ⟨7, [.word 4]⟩⟩ :: [] ∧
    (∀ l ∈ [(⟨0, ⟨3, [.word 0]⟩⟩ : PortLine)], l.client ≠ 1) ∧
    decode (.req ⟨7, [.word 4]⟩) = .ok (.clksel 4) := by decide

theorem witness_SeqTurnRunsTheCommand :
    let s : State := { inTx .poll .single (.read 0x2F) 0 0 with turns := [.seq 0 1] }
    s.turns = .seq 0 1 :: [] ∧ s.seq.st ≠ .idle ∧ s.seq.cmd = some (.read 0x2F) ∧
    decode (.cmd32 (pack (.read 0x2F))) = .ok (.spiRead 0x2F) := by decide

/-- A client that holds the grant, and one with no line; a library with no call to answer, and one with a request of its
own waiting for a grant, waiting to tune, or granted; a tuner in progress, and one with nothing waiting; POLL. -/
theorem witness_NoEnabledStepKeepsTheState :
    s0.turns = [] ∧
    (let s : State := { inTx .poll .single (.read 1) 0 0 with turns := [.client 0] }
     s.turns = .client 0 :: [] ∧ 0 < s.cfg.numClients ∧ outstanding 0 s = true) ∧
    (∀ l ∈ s0.port, l.client ≠ 1) ∧
    (let s : State := { s0 with turns := [.rflib .ok] }
     s.turns = .rflib .ok :: [] ∧ s.tune.waiting = false ∧
     Pending.has s.cfg.rflibClient { s with arbPending := [(1, .transact 0)] }.arbPending = true ∧
     Pending.has s.cfg.rflibClient { s with tunePending := [(1, ⟨f, [2]⟩)] }.tunePending = true ∧
     { s with seq := seqStarted 1 (.read 1) }.seq.owner = some s.cfg.rflibClient) ∧
    (let s : State := { inTune 0 [2] with turns := [.tuner 0] }
     s.turns = .tuner 0 :: [] ∧ s.tune.st = .searching ∧ Pending.lookup 0 s0.tunePending = none) ∧
    (let s : State := { inTx .poll .single (.read 1) 0 0 with turns := [.bridge] }
     s.turns = .bridge :: [] ∧ s.seq.st = .poll) := by decide

theorem witness_ResetValues :
    let s (slot : BridgeSlot) : State := { inTx .poll .single (.read 1) 0 0 with turns := [.reset slot] }
    (s .idle).turns = .reset .idle :: [] ∧ (s .busy).turns = .reset .busy :: [] := by decide

/-- A bridge that is idle at power-up, and a reset in POLL with the slot drawn idle. -/
theorem witness_ResetMeetsTheInvariant :
    BridgeIdle (State.resetWith build bridge) ∧
    (let s : State := { inTx .poll .single (.read 1) 0 0 with turns := [.reset .idle] }
     s.turns = .reset .idle :: []) := ⟨rfl, rfl⟩

/-- The invariant in POLL of client 0's TRANSACT, with no other request. -/
theorem inv_inTx : Inv (inTx .poll .single (.write 1 2) 0 0) := by
  refine ⟨?_, ?_, ?_, ?_, ?_, ?_, ?_⟩ <;> constructor <;>
    simp [inTx, s0, build, busyBridge, State.resetWith, Batch.reset, Tune.reset, Pending.wf, heldCount, Pending.has,
      Pending.lookup, Config.maxAttempts, clientExists, Config.Build.numClients]
  intro c
  split <;> omega

/-- The turns the environment has in store are not part of the invariant. -/
theorem inv_turns {s : State} (h : Inv s) (turns : List Turn) : Inv { s with turns := turns } :=
  ⟨⟨h.seqInv.1, h.seqInv.2, h.seqInv.3, h.seqInv.4, h.seqInv.5⟩, ⟨h.pollInv.1, h.pollInv.2, h.pollInv.3⟩,
    ⟨h.batchInv.1, h.batchInv.2, h.batchInv.3⟩,
    ⟨h.tuneInv.1, h.tuneInv.2, h.tuneInv.3, h.tuneInv.4, h.tuneInv.5, h.tuneInv.6, h.tuneInv.7, h.tuneInv.8,
      h.tuneInv.9, h.tuneInv.10⟩,
    ⟨h.pendingInv.1, h.pendingInv.2, h.pendingInv.3, h.pendingInv.4, h.pendingInv.5, h.pendingInv.6⟩,
    ⟨h.clientInv.1, h.clientInv.2, h.clientInv.3⟩, ⟨h.slotInv.1, h.slotInv.2⟩⟩

/-- In POLL with the done answer next. -/
def polling : State := { inTx .poll .single (.write 1 2) 0 0 with turns := [.seq 0 1] }

theorem inv_polling : Inv polling := inv_turns inv_inTx _

theorem witness_EveryStepKeepsTheInvariant : Inv polling ∧ ∃ t, step polling = .next t := ⟨inv_polling, _, rfl⟩

theorem witness_NoStepFaultsFromTheInvariant : Inv polling := inv_polling

/-- In POLL of the first command of a batch of a Write and a Read. -/
theorem inv_inBatch : Inv (inBatch .poll 0 (.write 1 2) [] 0) := by
  refine ⟨?_, ?_, ?_, ?_, ?_, ?_, ?_⟩ <;> constructor <;>
    simp [inBatch, inTx, s0, build, busyBridge, State.resetWith, Tune.reset, Pending.wf, heldCount, Pending.has,
      Pending.lookup, Config.maxAttempts, clientExists, Config.Build.numClients]
  intro c
  split <;> omega

/-- A TRANSACT's transaction and a batch's. -/
theorem witness_BoundedPollEndsEveryTransaction :
    ∀ s ∈ [inTx .poll .single (.write 1 2) 0 0, inBatch .poll 0 (.write 1 2) [] 0],
      let s : State := { s with turns := seqTurns [0, 0, 0, 0, 0] }
      Inv s ∧ s.cfg.pollLimit = some 2 ∧ s.seq.owner = some 0 ∧ s.turns = seqTurns [0, 0, 0, 0, 0] ∧
      2 + 3 ≤ [0#32, 0, 0, 0, 0].length := by
  intro s hs
  simp only [List.mem_cons, List.not_mem_nil, or_false] at hs
  rcases hs with rfl | rfl
  · exact ⟨inv_turns inv_inTx _, rfl, rfl, rfl, by decide⟩
  · exact ⟨inv_turns inv_inBatch _, rfl, rfl, rfl, by decide⟩

/-- A client's turn and the library's around the last turn of `Seq`, and a turn of each other agent by itself. -/
theorem witness_OtherAgentsLeaveATransactionAlone :
    (∀ turn ∈ [Turn.client 1, .tuner 0, .rflib .ok, .bridge], turn.isReset = false ∧ turn.isSeq = false ∧
      ∃ t, step { inTx .poll .single (.write 1 2) 0 0 with turns := [turn] } = .next t) ∧
    (let turns : List Turn := [.client 1, .seq 0 1, .rflib .ok]
     let s : State := { inTx .poll .single (.write 1 2) 0 0 with turns := turns }
     let alone : State := { s with turns := turns.filter Turn.isSeq }
     s.turns = turns ++ [] ∧ (∀ x ∈ turns, x.isReset = false) ∧
     (∀ k v, k < (turns.filter Turn.isSeq).length → Host.Core.run Sys2Proof.core k alone = .next v →
       v.seq.st ≠ .idle) ∧
     (∃ t, Host.Core.run Sys2Proof.core turns.length s = .next t) ∧
     ∃ u, Host.Core.run Sys2Proof.core (turns.filter Turn.isSeq).length alone = .next u) := by
  refine ⟨?_, rfl, by decide, ?_, ⟨_, rfl⟩, _, rfl⟩
  · intro turn h
    simp only [List.mem_cons, List.not_mem_nil, or_false] at h
    rcases h with rfl | rfl | rfl | rfl <;> exact ⟨rfl, rfl, _, rfl⟩
  · intro k v hk hv
    have : k = 0 := Nat.lt_one_iff.mp hk
    subst this
    cases hv
    decide

/-- At WR_MOSI of client 0's TRANSACT. -/
def atMosi : State :=
  { s0 with seq := seqStarted 0 (.write 1 2), turns := [.seq 0 0] }

theorem inv_atMosi : Inv atMosi := by
  refine ⟨?_, ?_, ?_, ?_, ?_, ?_, ?_⟩ <;> constructor <;>
    simp [atMosi, s0, build, bridge, seqStarted, State.resetWith, Batch.reset, Tune.reset, Pending.wf, heldCount,
      Pending.has, Pending.lookup, Config.maxAttempts, clientExists, Config.Build.numClients]
  intro c
  split <;> omega

/-- The step is a write, with no timeout seen and the slot idle. -/
theorem witness_SingleSlotIsKept :
    Inv atMosi ∧ SingleSlot atMosi ∧ resetNext atMosi = false ∧
    ∃ t, step atMosi = .next t ∧
      t.bus = atMosi.bus ++ [⟨some 0, .write, .spiMosi, 0x80010002⟩] ∧ atMosi.timeoutSeen = false :=
  ⟨inv_atMosi, by unfold SingleSlot; decide, rfl, _, rfl, by decide, rfl⟩

theorem witness_OneAccessPerStepAndOnlySeq : ∃ t, step polling = .next t := ⟨_, rfl⟩

/-- A write and a read. -/
theorem witness_AccessRights :
    (∃ t, step atMosi = .next t ∧ t.bus = atMosi.bus ++ [⟨some 0, .write, .spiMosi, 0x80010002⟩]) ∧
    ∃ t, step polling = .next t ∧ t.bus = polling.bus ++ [⟨some 0, .read, .spiStatus, 1⟩] :=
  ⟨⟨_, rfl, by decide⟩, ⟨_, rfl, by decide⟩⟩

theorem witness_GrantIsExclusive :
    Inv polling ∧ polling.seq.owner = some 0 ∧ ∃ t, step polling = .next t := ⟨inv_polling, rfl, _, rfl⟩

/-- A step that releases the grant. -/
theorem witness_ReleaseComesWithTheResult :
    Inv polling ∧ polling.seq.owner = some 0 ∧ resetNext polling = false ∧
    ∃ t, step polling = .next t ∧ t.seq.owner ≠ some 0 := ⟨inv_polling, rfl, rfl, _, rfl, by decide⟩

/-- A step that times out; one that is no reset with the flag set; a reset. -/
theorem witness_TimeoutFlagIsSticky :
    (let s : State := { inTx .poll .single (.read 1) 1 0 with turns := [.seq 0 0] }
     ∃ t, step s = .next t ∧ t.results = s.results ++ [⟨0, ⟨.transactionTimeout, 0, .none⟩⟩]) ∧
    (let s : State := { s0 with timeoutSeen := true, turns := [.client 0] }
     ∃ t, step s = .next t ∧ resetNext s = false ∧ s.timeoutSeen = true) ∧
    (let s : State := { s0 with timeoutSeen := true, turns := [.reset .busy] }
     ∃ t, step s = .next t ∧ resetNext s = true) :=
  ⟨⟨_, rfl, by decide⟩, ⟨_, rfl, rfl, rfl⟩, ⟨_, rfl, rfl⟩⟩

theorem witness_AtMostOneResultPerStep : ∃ t, step polling = .next t := ⟨_, rfl⟩

theorem witness_ParametersNeverChange : ∃ t, step polling = .next t := ⟨_, rfl⟩

/-- Client 0's tune waits for the library's answer, and the library for its own TUNE_CGEN. -/
def selfWait : State :=
  { inTune 0 [2] with tunePending := [(1, ⟨f, [2]⟩)], turns := [.rflib .ok] }

theorem inv_selfWait : Inv selfWait := by
  refine ⟨?_, ?_, ?_, ?_, ?_, ?_, ?_⟩ <;> constructor <;>
    simp [selfWait, inTune, s0, build, bridge, f, State.resetWith, Seq.reset, Batch.reset, Pending.wf, heldCount,
      Pending.has, Pending.lookup, Config.maxAttempts, clientExists, Config.Build.numClients, tuneBudget,
      TuneRequest.lawful, fits]
  intro c
  split <;> split <;> simp_all

theorem witness_ReentrantTuneIsStuckUntilReset :
    Inv selfWait ∧ selfWait.tune.waiting = true ∧
    Pending.has selfWait.cfg.rflibClient selfWait.tunePending = true ∧ resetNext selfWait = false ∧
    ∃ t, step selfWait = .next t := ⟨inv_selfWait, rfl, by decide, rfl, _, rfl⟩

theorem witness_AssemblerRefusesOutOfRange :
    (AsmCmd.wr 0x7FFF 0xFFFF).assemble = some 0xFFFFFFFF ∧ (AsmCmd.rd 0x7FFF).assemble = some 0x7FFF0000 := by
  decide

end Sys2Proof.Tests
end

/-! Proofs of the family of `00_scope.md`: what the block refuses (rules R97, R172 and R216), the one access of a step
(rule R8), and the command a turn of `Seq` runs (rules R8 and R133). -/

namespace Sys2Proof

/-- Rule R88: unpacking a packed command gives the command back. -/
@[simp] theorem unpack_pack (cmd : Command) : unpack (pack cmd) = cmd := by
  cases cmd with
  | write a v =>
    have haddr : (pack (.write a v)).extractLsb' 16 15 = a := by
      ext i hi
      have hlt : 16 + i < 31 := by omega
      simp [← BitVec.getLsbD_eq_getElem, getLsbD_pack_write, hi, hlt]
    have hvalue : (pack (.write a v)).extractLsb' 0 16 = v := by
      ext i hi
      simp [← BitVec.getLsbD_eq_getElem, getLsbD_pack_write, hi]
    simp [unpack, haddr, hvalue, getLsbD_pack_write]
  | read a =>
    have haddr : (pack (.read a)).extractLsb' 16 15 = a := by
      ext i hi
      simp [← BitVec.getLsbD_eq_getElem, getLsbD_pack_read, hi]
    have htag : (pack (.read a)).getLsbD 31 = false := by rw [getLsbD_pack_read]; simp
    rw [unpack, htag, haddr]
    rfl

/-- The packed word of a command decodes to the command's own instruction (rules R82 and R88). -/
theorem decode_cmd32_pack (cmd : Command) : decode (.cmd32 (pack cmd)) = .ok (Instr.ofCommand cmd) := by
  simp [decode, decodeCommand]

/-- A list does not fit exactly when it is longer than the bound (rule R97). -/
theorem fits_eq_false_iff {α : Type} (l : List α) (n : Nat) : fits l n = false ↔ n < l.length := by
  rw [← Bool.not_eq_true, fits_iff, not_le]

namespace Machine

/-- Rules R97 and R216: a batch past `P_BATCH_MAX` is refused. -/
theorem exec_transactMany_of_too_long {ws : List Word} {s : State} (h : s.cfg.batchMax < ws.length) :
    exec (.transactMany ws) s = .refused .batchTooLong := by
  simp [exec, execTransactMany, (fits_eq_false_iff _ _).mpr h]

/-- Rules R172 and R216: a frequency that is not positive is refused. -/
theorem exec_tuneCgen_of_not_positive {f : Freq} {ds : List Word} {s : State} (h : f.positive = false) :
    exec (.tuneCgen f ds) s = .refused .freqNotPositive := by
  simp [exec, execTuneCgen, h]

/-- Rules R97 and R216: a candidate list past `P_CAND_MAX` is refused. -/
theorem exec_tuneCgen_of_too_long {f : Freq} {ds : List Word} {s : State} (hf : f.positive = true)
    (h : s.cfg.candMax < ds.length) : exec (.tuneCgen f ds) s = .refused .candsTooLong := by
  simp [exec, execTuneCgen, hf, (fits_eq_false_iff _ _).mpr h]

/-- Settles O16: the name of a frequency carries the `positive` of its value, and a list does not fit when it is
longer than its bound. -/
theorem requestsOutsideTheDomainAreRefused : Obligations.RequestsOutsideTheDomainAreRefused := by
  refine ⟨fun ws s h => exec_transactMany_of_too_long h, fun f ds s h => ?_, fun f ds s hf h => ?_⟩
  · rw [Config.freqType.value_positive] at h
    exact exec_tuneCgen_of_not_positive h
  · rw [Config.freqType.value_positive] at hf
    exact exec_tuneCgen_of_too_long hf h

/-- Settles O44: the packed word of `seq.cmd` decodes to the instruction that `Seq` runs. -/
theorem seqTurnRunsTheCommand : Obligations.SeqTurnRunsTheCommand := by
  intro s pick draw cmd i rest hturns hst hcmd hdecode
  rw [decode_cmd32_pack] at hdecode
  cases hdecode
  exact step_seq hturns hst hcmd

/-- The access that completes a transaction is one read, appended to the bus order. -/
theorem Completes.bus_append {s u : State} {r : Response} (h : Completes s r u) : ∃ a, u.bus = s.bus ++ [a] := by
  cases h with
  | write => exact ⟨_, pollRead_bus s⟩
  | read => exact ⟨_, regRead_bus s .spiMiso⟩

/-- Rule R8, effect by effect: the bus order stays, or the turn is of `Seq` and one access is appended. -/
theorem Effect.bus_cases {s t : State} {turn : Turn} (h : Effect s turn t) :
    t.bus = s.bus ∨ ∃ a pick draw, t.bus = s.bus ++ [a] ∧ turn = .seq pick draw := by
  cases h with
  | hold | answer | accept | tuneWait | tuneFail | tuneGo | grantSingle | grantMany | grantEmpty | waitFail | waitGo
  | attemptOk | attemptLast | attemptNext | bridge | reset => exact .inl rfl
  | grantReg | wrMosi | wrCtrl | pollAgain | timeoutSingle | timeoutMany | readDone =>
    exact .inr ⟨_, _, _, rfl, rfl⟩
  | doneSingle _ _ _ _ _ hc | doneLast _ _ _ _ _ hc | doneNext _ _ _ _ _ _ hc =>
    obtain ⟨a, ha⟩ := hc.bus_append
    exact .inr ⟨a, _, _, ha, rfl⟩

/-- Settles O51: the bus order over the effects of the turn that is taken. -/
theorem oneAccessPerStepAndOnlySeq : Obligations.OneAccessPerStepAndOnlySeq := by
  intro s t h
  rcases step_cases h with ⟨_, rfl⟩ | ⟨turn, rest, hturns, heffect⟩
  · exact .inl rfl
  · rcases heffect.bus_cases with hbus | ⟨a, pick, draw, hbus, rfl⟩
    · exact .inl hbus
    · exact .inr ⟨a, pick, draw, rest, hbus, hturns⟩

end Machine

end Sys2Proof

/-! Proofs of the family of `10_state.md`: the invariant of the block and what reset leaves (rules R31 to R41 and R232),
what a step appends to the histories (rules R27, R36, R43 and R44), and the single steps of the sequencer, the tuner and
the client ports. -/

namespace Sys2Proof.Machine

variable {s t : State}

/-! ### The sequencer's registers -/

theorem SeqInv.of_seq_eq (h : SeqInv s) (e : t.seq = s.seq) : SeqInv t :=
  ⟨e ▸ h.cmd_iff, e ▸ h.owner_iff, e ▸ h.mode_iff, e ▸ h.mode_not_reg, e ▸ h.rdMiso_read⟩

/-- Rules R34 and R138: a free sequencer, whose registers hold no value. -/
theorem SeqInv.of_free (hst : t.seq.st = .idle) (hcmd : t.seq.cmd = none) (howner : t.seq.owner = none)
    (hmode : t.seq.mode = none) : SeqInv t := by
  constructor <;> simp [hst, hcmd, howner, hmode]

/-- Rules R132 and R181: a sequencer in a transaction of `cmd`, granted to `c`. -/
theorem SeqInv.of_held {cmd : Command} {c : ClientId} {m : SeqMode} (hst : t.seq.st ≠ .idle)
    (hcmd : t.seq.cmd = some cmd) (howner : t.seq.owner = some c) (hmode : t.seq.mode = some m) (hm : m ≠ .reg)
    (hread : t.seq.st = .rdMiso → ∃ a, cmd = .read a) : SeqInv t := by
  constructor <;> simp_all

/-- In IDLE the registers hold no value (rule R50). -/
theorem SeqInv.free (h : SeqInv s) (hst : s.seq.st = .idle) :
    s.seq.cmd = none ∧ s.seq.owner = none ∧ s.seq.mode = none := by
  have hcmd := h.cmd_iff
  have howner := h.owner_iff
  have hmode := h.mode_iff
  simp_all

/-- Out of IDLE a command, its client and its mode are there (rules R32, R34 and R35). -/
theorem SeqInv.held (h : SeqInv s) (hst : s.seq.st ≠ .idle) :
    ∃ cmd c m, s.seq.cmd = some cmd ∧ s.seq.owner = some c ∧ s.seq.mode = some m ∧ m ≠ .reg := by
  have howner := h.owner_iff.mpr hst
  obtain ⟨cmd, hcmd⟩ := Option.isSome_iff_exists.mp (h.cmd_iff.mpr hst)
  obtain ⟨c, hc⟩ := Option.isSome_iff_exists.mp howner
  obtain ⟨m, hm⟩ := Option.isSome_iff_exists.mp (h.mode_iff.mpr howner)
  exact ⟨cmd, c, m, hcmd, hc, hm, fun e => h.mode_not_reg (e ▸ hm)⟩

/-- Going from one state of a transaction to another keeps what the registers hold. -/
theorem SeqInv.of_moved (h : SeqInv s) {st : SeqSt} {polls : Nat} (hs : s.seq.st ≠ .idle) (hst : st ≠ .idle)
    (hread : st = .rdMiso → ∃ a, s.seq.cmd = some (.read a)) (e : t.seq = { s.seq with st := st, polls := polls }) :
    SeqInv t := by
  obtain ⟨cmd, c, m, hcmd, hc, hm, hreg⟩ := h.held hs
  exact .of_held (by rwa [e]) (by rw [e, ← hcmd]) (by rw [e, ← hc]) (by rw [e, ← hm]) hreg
    (by simpa [e, hcmd] using hread)

/-- The access that completes a transaction is one read of SPI_STATUS or SPI_MISO, and of the registers it changes
none but `seq.polls` (rules R135 and R137). -/
theorem Completes.frame {u : State} {r : Response} (h : Completes s r u) :
    ∃ polls bridge reg, (reg = .spiStatus ∨ reg = .spiMiso) ∧
      u = { s with seq := { s.seq with polls := polls }, bridge := bridge,
                   bus := s.bus ++ [⟨s.seq.owner, .read, reg, s.busAnswer⟩] } := by
  cases h with
  | write => exact ⟨_, _, .spiStatus, .inl rfl, rfl⟩
  | read => exact ⟨_, _, .spiMiso, .inr rfl, rfl⟩

/-- Every effect keeps what the sequencer's registers hold (rules R32, R34, R35 and R137). -/
theorem Effect.seqInv {turn : Turn} (h : Effect s turn t) (hs : SeqInv s) : SeqInv t := by
  cases h with
  | hold | answer | accept | tuneWait | tuneFail | tuneGo | waitFail | waitGo | attemptOk | attemptLast
  | attemptNext | bridge => exact hs.of_seq_eq rfl
  | grantSingle | grantMany => exact .of_held (by simp) rfl rfl rfl (by simp) (by simp)
  | grantEmpty _ _ _ hst | grantReg _ _ _ _ hst => exact .of_free hst (hs.free hst).1 rfl rfl
  | wrMosi _ _ _ _ h | wrCtrl _ _ _ _ h =>
    exact hs.of_moved (polls := s.seq.polls) (by simp [h]) (by simp) (by simp) rfl
  | pollAgain _ _ _ _ h => exact hs.of_moved (st := s.seq.st) (by simp [h]) (by simp [h]) (by simp [h]) rfl
  | readDone _ _ a hcmd h => exact hs.of_moved (by simp [h]) (by simp) (fun _ => ⟨a, hcmd⟩) rfl
  | timeoutSingle | timeoutMany | doneSingle | doneLast | reset => exact .of_free rfl rfl rfl rfl
  | doneNext _ _ c _ u cmd hc hm ho =>
    obtain ⟨_, _, _, _, rfl⟩ := hc.frame
    exact .of_held (by simp) rfl ho hm (by simp) (by simp)

/-! ### The poll counter -/

theorem PollInv.of_eq (h : PollInv s) (hcfg : t.cfg = s.cfg) (hst : t.seq.st = s.seq.st)
    (hpolls : t.seq.polls = s.seq.polls) : PollInv t :=
  ⟨by rw [hst, hpolls]; exact h.start_zero, by rw [hcfg, hst, hpolls]; exact h.below_limit,
    by rw [hcfg, hpolls]; exact h.at_most_limit⟩

/-- Rule R132: with no STATUS read made yet no limit is reached, since `P_POLL_LIMIT` is not 0 (rule R10). -/
theorem PollInv.of_zero (h : t.seq.polls = 0) : PollInv t := by
  have hpos : ∀ n, t.cfg.pollLimit = some n → 0 < n := fun n hn =>
    Nat.pos_of_ne_zero fun e => t.cfg.pollLimit_pos (e ▸ hn)
  refine ⟨fun _ => h, fun n hn _ => ?_, fun n hn => ?_⟩ <;> have := hpos n hn <;> omega

/-- Past POLL the counter only has to be within the limit (rule R33). -/
theorem PollInv.of_past_poll (hst : t.seq.st = .idle ∨ t.seq.st = .rdMiso)
    (h : ∀ n, t.cfg.pollLimit = some n → t.seq.polls ≤ n) : PollInv t := by
  rcases hst with hst | hst <;> exact ⟨by simp [hst], by simp [hst], h⟩

/-- In POLL one more STATUS read is within the limit (rule R136). -/
theorem PollInv.succ_le (h : PollInv s) (hst : s.seq.st = .poll) {n : Nat} (hn : s.cfg.pollLimit = some n) :
    s.seq.polls + 1 ≤ n := h.below_limit n hn hst

/-- The access that completes a transaction leaves the counter within the limit (rule R136). -/
theorem Completes.polls_le {u : State} {r : Response} {n : Nat} (h : Completes s r u) (hs : PollInv s)
    (hn : s.cfg.pollLimit = some n) : u.seq.polls ≤ n := by
  cases h with
  | write _ _ _ hst => exact hs.succ_le hst hn
  | read => exact hs.at_most_limit n hn

/-- Every effect keeps the counter within its limit (rules R33 and R136). -/
theorem Effect.pollInv {turn : Turn} (h : Effect s turn t) (hs : PollInv s) : PollInv t := by
  cases h with
  | hold | answer | accept | tuneWait | tuneFail | tuneGo | waitFail | waitGo | attemptOk | attemptLast
  | attemptNext | bridge | grantEmpty | grantReg => exact hs.of_eq rfl rfl rfl
  | grantSingle | grantMany | doneNext | reset => exact .of_zero rfl
  | wrMosi _ _ _ _ h => exact .of_zero (hs.start_zero (.inl h))
  | wrCtrl _ _ _ _ h => exact .of_zero (hs.start_zero (.inr h))
  | pollAgain _ _ _ _ h _ hl =>
    refine ⟨by simp [h], fun n hn _ => ?_, fun n hn => hs.succ_le h hn⟩
    exact lt_of_le_of_ne (hs.succ_le h hn) fun e => hl (hn.trans (congrArg some e.symm))
  | timeoutSingle _ _ _ h | timeoutMany _ _ _ h => exact .of_past_poll (.inl rfl) fun n hn => hs.succ_le h hn
  | readDone _ _ _ _ h => exact .of_past_poll (.inr rfl) fun n hn => hs.succ_le h hn
  | doneSingle _ _ _ _ _ hc | doneLast _ _ _ _ _ hc =>
    refine .of_past_poll (.inl rfl) fun n hn => hc.polls_le (hs.of_eq rfl rfl rfl) ?_
    obtain ⟨_, _, _, _, rfl⟩ := hc.frame
    exact hn

/-! ### The batch -/

theorem BatchInv.of_eq (h : BatchInv s) (hcfg : t.cfg = s.cfg) (hbatch : t.batch = s.batch)
    (hmode : t.seq.mode = s.seq.mode) (hcmd : t.seq.cmd = s.seq.cmd) : BatchInv t :=
  ⟨by rw [hcfg, hbatch]; exact h.length_le, by rw [hbatch, hmode, hcmd]; exact h.at_idx,
    by rw [hbatch, hmode]; exact h.resps_length⟩

/-- With no batch in progress only the bound on what the last one left has to hold. -/
theorem BatchInv.of_not_many (hmode : t.seq.mode ≠ some .many) (h : t.batch.cmds.length ≤ t.cfg.batchMax) :
    BatchInv t := ⟨h, fun e => absurd e hmode, fun e => absurd e hmode⟩

/-- A waiting batch is within its bound (rules R97 and R182). -/
theorem PendingInv.batch_length_le (h : PendingInv s) {c : ClientId} {ws : List Word}
    (hq : Pending.lookup c s.arbPending = some (.transactMany ws)) : ws.length ≤ s.cfg.batchMax :=
  (fits_iff ws _).mp (h.arb_lawful _ (Pending.mem_of_lookup hq))

/-- Every effect keeps the batch registers in step with `seq.cmd` (rules R35, R141 and R142). -/
theorem Effect.batchInv {turn : Turn} (h : Effect s turn t) (hs : BatchInv s) (hp : PendingInv s) : BatchInv t := by
  cases h with
  | hold | answer | accept | tuneWait | tuneFail | tuneGo | waitFail | waitGo | attemptOk | attemptLast
  | attemptNext | bridge | wrMosi | wrCtrl | pollAgain | readDone => exact hs.of_eq rfl rfl rfl rfl
  | grantSingle | grantReg | timeoutSingle | timeoutMany => exact .of_not_many (by simp) hs.length_le
  | grantEmpty | reset => exact .of_not_many (by simp [Seq.reset]) (Nat.zero_le _)
  | grantMany _ _ w ws _ _ hq =>
    refine ⟨?_, fun _ => rfl, fun _ => rfl⟩
    simpa [batchCommands] using hp.batch_length_le hq
  | doneSingle _ _ _ _ _ hc | doneLast _ _ _ _ _ hc =>
    obtain ⟨_, _, _, _, rfl⟩ := hc.frame
    exact .of_not_many (by simp) hs.length_le
  | doneNext _ _ _ _ _ _ hc hm _ hn =>
    obtain ⟨_, _, _, _, rfl⟩ := hc.frame
    exact ⟨hs.length_le, fun _ => hn, fun _ => by simp [hs.resps_length hm]⟩

/-! ### The tuner's registers -/

theorem TuneInv.of_eq (h : TuneInv s) (hcfg : t.cfg = s.cfg) (htune : t.tune = s.tune) : TuneInv t := by
  constructor <;> rw [htune]
  case cands_le => rw [hcfg]; exact h.cands_le
  exacts [h.idx_lt, h.waiting_iff, h.owner_iff, h.freq_none_iff, h.freq_positive, h.budget_eq, h.idx_in_budget,
    h.attempts_eq, h.attempts_le]

/-- The budget is at most `P_MAX_ATTEMPTS`, and there is a candidate for each attempt (rule R163). -/
theorem tuneBudget_le (cands : List Word) : tuneBudget cands ≤ Config.maxAttempts ∧ tuneBudget cands ≤ cands.length :=
  ⟨min_le_left _ _, min_le_right _ _⟩

/-- A lawful TUNE_CGEN has a positive frequency and fits its bound (rules R97 and R172). -/
theorem TuneRequest.lawful_iff {cfg : Config.Build} {q : TuneRequest} :
    q.lawful cfg = true ↔ q.freq.positive = true ∧ q.cands.length ≤ cfg.candMax := by
  simp [TuneRequest.lawful, fits_iff]

/-- A free tuner waits for no answer and has no owner (rules R38 and R39). -/
theorem TuneInv.free (h : TuneInv s) (hst : s.tune.st ≠ .searching) :
    s.tune.waiting = false ∧ s.tune.owner = none := by
  have hwaiting := h.waiting_iff
  have howner := h.owner_iff
  simp_all

/-- A TUNE_CGEN with an empty budget leaves the tuner EXHAUSTED (rule R163). -/
theorem TuneInv.of_tuneFail (h : TuneInv s) (hst : s.tune.st ≠ .searching) {c : ClientId} {q : TuneRequest}
    (hq : q.lawful s.cfg = true) (hcfg : t.cfg = s.cfg)
    (e : t.tune = { tuneStarted c q.freq q.cands s with st := .exhausted, owner := none }) : TuneInv t := by
  obtain ⟨hfreq, hlen⟩ := TuneRequest.lawful_iff.mp hq
  obtain ⟨hwaiting, -⟩ := h.free hst
  constructor <;> simp [e, tuneStarted, hcfg, hfreq, hlen, hwaiting, Config.maxAttempts]

/-- A TUNE_CGEN with a budget leaves the tuner waiting for the answer to attempt 0 (rules R162 to R164). -/
theorem TuneInv.of_tuneGo {c : ClientId} {q : TuneRequest} (hq : q.lawful s.cfg = true)
    (hb : tuneBudget q.cands ≠ 0) (hcfg : t.cfg = s.cfg)
    (e : t.tune = { tuneStarted c q.freq q.cands s with st := .searching, waiting := true, attemptsMade := 1 }) :
    TuneInv t := by
  obtain ⟨hfreq, hlen⟩ := TuneRequest.lawful_iff.mp hq
  have hpos := Nat.pos_of_ne_zero hb
  constructor <;> simp [e, tuneStarted, hcfg, hfreq, hlen, hpos, Nat.succ_le_of_lt hpos, Config.maxAttempts]

/-- A waiting tuner is SEARCHING, with a frequency and with the candidate it has tried within its budget (rules R38
and R163). -/
theorem TuneInv.searching (h : TuneInv s) (hw : s.tune.waiting = true) :
    s.tune.st = .searching ∧ s.tune.freq ≠ none ∧ s.tune.budget = tuneBudget s.tune.cands ∧
      s.tune.idx < s.tune.budget := by
  have hst := h.waiting_iff.mp hw
  exact ⟨hst, by simp [h.freq_none_iff, hst], h.budget_eq (by simp [hst]), h.idx_in_budget hst⟩

/-- The end of a TUNE_CGEN keeps what the registers hold (rules R165 and R166). -/
theorem TuneInv.of_ended (h : TuneInv s) (hw : s.tune.waiting = true) {st : TuneSt} (hidle : st ≠ .tIdle)
    (hst : st ≠ .searching) (hcfg : t.cfg = s.cfg)
    (e : t.tune = { s.tune with waiting := false, st := st, owner := none }) : TuneInv t := by
  obtain ⟨-, hfreq, hbudget, -⟩ := h.searching hw
  constructor <;> simp only [e]
  case cands_le => rw [hcfg]; exact h.cands_le
  case idx_lt => exact h.idx_lt
  case freq_positive => exact h.freq_positive
  case attempts_le => exact h.attempts_le
  all_goals simp [*]

/-- The next attempt keeps what the registers hold (rule R166). -/
theorem TuneInv.of_attemptNext (h : TuneInv s) (hw : s.tune.waiting = true) (hl : s.tune.idx + 1 ≠ s.tune.budget)
    (hcfg : t.cfg = s.cfg)
    (e : t.tune = { s.tune with waiting := true, idx := s.tune.idx + 1, attemptsMade := s.tune.idx + 2 }) :
    TuneInv t := by
  obtain ⟨hst, hfreq, hbudget, hidx⟩ := h.searching hw
  have hmax := (tuneBudget_le s.tune.cands).1
  have howner := h.owner_iff
  constructor <;> simp only [e]
  case cands_le => rw [hcfg]; exact h.cands_le
  case freq_positive => exact h.freq_positive
  case waiting_iff | owner_iff | freq_none_iff | budget_eq | attempts_eq => simp_all
  case idx_in_budget => intro; omega
  all_goals omega

/-- Rule R232: the tuner's registers at reset. -/
theorem TuneInv.of_reset (e : t.tune = Tune.reset) : TuneInv t := by
  constructor <;> simp [e, Tune.reset, Config.maxAttempts]

/-- Every effect keeps the tuner's registers in agreement with its state (rules R38 and R39). -/
theorem Effect.tuneInv {turn : Turn} (h : Effect s turn t) (hs : TuneInv s) (hp : PendingInv s) : TuneInv t := by
  cases h with
  | hold | answer | accept | tuneWait | bridge | grantSingle | grantMany | grantEmpty | grantReg | wrMosi | wrCtrl
  | pollAgain | readDone | timeoutSingle | timeoutMany => exact hs.of_eq rfl rfl
  | doneSingle _ _ _ _ _ hc | doneLast _ _ _ _ _ hc | doneNext _ _ _ _ _ _ hc =>
    obtain ⟨_, _, _, _, rfl⟩ := hc.frame
    exact hs.of_eq rfl rfl
  | tuneFail _ _ _ _ _ hq hst => exact hs.of_tuneFail hst hq rfl rfl
  | waitFail _ _ hst hq => exact hs.of_tuneFail hst (hp.tune_lawful _ (Pending.mem_of_lookup hq)) rfl rfl
  | tuneGo _ _ _ _ _ _ hq _ hb => exact .of_tuneGo hq hb rfl rfl
  | waitGo _ _ _ _ hq hb => exact .of_tuneGo (hp.tune_lawful _ (Pending.mem_of_lookup hq)) hb rfl rfl
  | attemptOk _ hw | attemptLast _ hw => exact hs.of_ended hw (by simp) (by simp) rfl rfl
  | attemptNext _ _ hw _ hl => exact hs.of_attemptNext hw hl rfl rfl
  | reset => exact .of_reset rfl

/-! ### The waiting sets -/

theorem PendingInv.of_eq (h : PendingInv s) (hcfg : t.cfg = s.cfg) (harb : t.arbPending = s.arbPending)
    (htune : t.tunePending = s.tunePending) : PendingInv t := by
  constructor <;> simp only [hcfg, harb, htune]
  exacts [h.arb_wf, h.tune_wf, h.arb_client, h.tune_client, h.arb_lawful, h.tune_lawful]

/-- Acceptance of a lawful bus request of a client (rule R182). -/
theorem PendingInv.of_arb_insert (h : PendingInv s) {c : ClientId} {q : BusRequest}
    (hc : clientExists s.cfg c = true) (hq : q.lawful s.cfg = true) (hcfg : t.cfg = s.cfg)
    (harb : t.arbPending = Pending.insert c q s.arbPending) (htune : t.tunePending = s.tunePending) :
    PendingInv t := by
  constructor <;> simp only [hcfg, harb, htune]
  case arb_wf => exact Pending.wf_insert h.arb_wf
  case arb_client => exact fun p hp => (Pending.mem_insert hp).elim (fun e => e ▸ hc) (h.arb_client p)
  case arb_lawful => exact fun p hp => (Pending.mem_insert hp).elim (fun e => e ▸ hq) (h.arb_lawful p)
  exacts [h.tune_wf, h.tune_client, h.tune_lawful]

/-- A lawful TUNE_CGEN of a client that waits (rule R162). -/
theorem PendingInv.of_tune_insert (h : PendingInv s) {c : ClientId} {q : TuneRequest}
    (hc : clientExists s.cfg c = true) (hq : q.lawful s.cfg = true) (hcfg : t.cfg = s.cfg)
    (harb : t.arbPending = s.arbPending) (htune : t.tunePending = Pending.insert c q s.tunePending) :
    PendingInv t := by
  constructor <;> simp only [hcfg, harb, htune]
  case tune_wf => exact Pending.wf_insert h.tune_wf
  case tune_client => exact fun p hp => (Pending.mem_insert hp).elim (fun e => e ▸ hc) (h.tune_client p)
  case tune_lawful => exact fun p hp => (Pending.mem_insert hp).elim (fun e => e ▸ hq) (h.tune_lawful p)
  exacts [h.arb_wf, h.arb_client, h.arb_lawful]

/-- A grant takes the client's request out of `arb.pending` (rule R181). -/
theorem PendingInv.of_arb_erase (h : PendingInv s) {c : ClientId} (hcfg : t.cfg = s.cfg)
    (harb : t.arbPending = Pending.erase c s.arbPending) (htune : t.tunePending = s.tunePending) : PendingInv t := by
  constructor <;> simp only [hcfg, harb, htune]
  case arb_wf => exact Pending.wf_erase h.arb_wf
  case arb_client => exact fun p hp => h.arb_client p (Pending.mem_erase hp)
  case arb_lawful => exact fun p hp => h.arb_lawful p (Pending.mem_erase hp)
  exacts [h.tune_wf, h.tune_client, h.tune_lawful]

/-- A waiting TUNE_CGEN that starts leaves `tune.pending` (rule R162). -/
theorem PendingInv.of_tune_erase (h : PendingInv s) {c : ClientId} (hcfg : t.cfg = s.cfg)
    (harb : t.arbPending = s.arbPending) (htune : t.tunePending = Pending.erase c s.tunePending) : PendingInv t := by
  constructor <;> simp only [hcfg, harb, htune]
  case tune_wf => exact Pending.wf_erase h.tune_wf
  case tune_client => exact fun p hp => h.tune_client p (Pending.mem_erase hp)
  case tune_lawful => exact fun p hp => h.tune_lawful p (Pending.mem_erase hp)
  exacts [h.arb_wf, h.arb_client, h.arb_lawful]

/-- Rule R232: nothing waits at reset. -/
theorem PendingInv.of_empty (harb : t.arbPending = []) (htune : t.tunePending = []) : PendingInv t := by
  constructor <;> simp [harb, htune, Pending.wf]

/-- Every effect keeps the waiting sets canonical and lawful (rules R40 and R41). -/
theorem Effect.pendingInv {turn : Turn} (h : Effect s turn t) (hs : PendingInv s) : PendingInv t := by
  cases h with
  | hold | answer | tuneFail | tuneGo | bridge | wrMosi | wrCtrl | pollAgain | readDone | timeoutSingle | timeoutMany
  | attemptOk | attemptLast | attemptNext => exact hs.of_eq rfl rfl rfl
  | doneSingle _ _ _ _ _ hc | doneLast _ _ _ _ _ hc | doneNext _ _ _ _ _ _ hc =>
    obtain ⟨_, _, _, _, rfl⟩ := hc.frame
    exact hs.of_eq rfl rfl rfl
  | accept _ _ _ hc _ hq => exact hs.of_arb_insert hc hq rfl rfl rfl
  | tuneWait _ _ _ hc _ hq => exact hs.of_tune_insert hc hq rfl rfl rfl
  | grantSingle | grantMany | grantEmpty | grantReg => exact hs.of_arb_erase rfl rfl rfl
  | waitFail | waitGo => exact hs.of_tune_erase rfl rfl rfl
  | reset => exact .of_empty rfl rfl

/-! ### One request a client -/

/-- The four places in which a request can be outstanding (rule R43). -/
theorem outstanding_eq_false_iff {c : ClientId} :
    outstanding c s = false ↔ Pending.has c s.arbPending = false ∧ Pending.has c s.tunePending = false ∧
      s.seq.owner ≠ some c ∧ s.tune.owner ≠ some c := by
  simp [outstanding, and_assoc]

/-- Who waits in a set with one entry erased waited in the set. -/
theorem Pending.has_of_has_erase {α : Type} {c d : ClientId} {l : List (ClientId × α)} (hwf : wf l = true)
    (h : has d (erase c l) = true) : has d l = true := by
  by_cases e : d = c
  · subst e; simp [has_erase_self hwf] at h
  · rwa [has_erase_ne l e] at h

/-- Who waits in a set with one entry inserted waited in the set, or is the entry's client. -/
theorem Pending.has_of_has_insert {α : Type} {c d : ClientId} {a : α} {l : List (ClientId × α)} (hd : d ≠ c)
    (h : has d (insert c a l) = true) : has d l = true := by
  rwa [has_insert_ne a l hd] at h

/-- Rules R43 and R220 are kept by a step after which no client stands in a place it did not stand in. -/
theorem ClientInv.of_left (h : ClientInv s) (hcfg : t.cfg = s.cfg)
    (harb : ∀ d, Pending.has d t.arbPending = true → Pending.has d s.arbPending = true)
    (hpending : ∀ d, Pending.has d t.tunePending = true → Pending.has d s.tunePending = true)
    (howner : ∀ d, t.seq.owner = some d → s.seq.owner = some d)
    (htune : ∀ d, t.tune.owner = some d → s.tune.owner = some d) : ClientInv t :=
  ⟨fun d => (heldCount_le (harb d) (hpending d) (howner d) (htune d)).trans (h.one_outstanding d),
    fun d hd => hcfg ▸ h.owner_client d (howner d hd), fun d hd => hcfg ▸ h.tune_owner_client d (htune d hd)⟩

/-- Rules R43 and R220 are kept by a step after which only the client `c` stands in a place it did not stand in, and in
no other. -/
theorem ClientInv.of_entered (h : ClientInv s) {c : ClientId} (hc : clientExists s.cfg c = true)
    (hone : heldCount c t ≤ 1) (hcfg : t.cfg = s.cfg)
    (harb : ∀ d, d ≠ c → Pending.has d t.arbPending = true → Pending.has d s.arbPending = true)
    (hpending : ∀ d, d ≠ c → Pending.has d t.tunePending = true → Pending.has d s.tunePending = true)
    (howner : ∀ d, d ≠ c → t.seq.owner = some d → s.seq.owner = some d)
    (htune : ∀ d, d ≠ c → t.tune.owner = some d → s.tune.owner = some d) : ClientInv t := by
  refine ⟨fun d => ?_, fun d hd => ?_, fun d hd => ?_⟩ <;> by_cases e : d = c
  · exact e ▸ hone
  · exact (heldCount_le (harb d e) (hpending d e) (howner d e) (htune d e)).trans (h.one_outstanding d)
  · exact e ▸ hcfg ▸ hc
  · exact hcfg ▸ h.owner_client d (howner d e hd)
  · exact e ▸ hcfg ▸ hc
  · exact hcfg ▸ h.tune_owner_client d (htune d e hd)

/-- Rule R232: no client's request is held at reset. -/
theorem ClientInv.of_reset (harb : t.arbPending = []) (hpending : t.tunePending = []) (hseq : t.seq = Seq.reset)
    (htune : t.tune = Tune.reset) : ClientInv t := by
  constructor <;> simp [heldCount, harb, hpending, hseq, htune, Pending.has, Pending.lookup, Seq.reset, Tune.reset]

/-- A grant moves the client's request from `arb.pending` to the grant register (rule R181). -/
theorem ClientInv.of_granted (h : ClientInv s) (hp : PendingInv s) {c : ClientId} {q : BusRequest}
    (hq : Pending.lookup c s.arbPending = some q) (hcfg : t.cfg = s.cfg)
    (harb : t.arbPending = Pending.erase c s.arbPending) (hpending : t.tunePending = s.tunePending)
    (howner : t.seq.owner = some c) (htune : t.tune = s.tune) : ClientInv t := by
  obtain ⟨hwaiting, -, htuning⟩ := only_in_arbPending (h.one_outstanding c) (has_of_lookup hq)
  have hc := hp.arb_client _ (Pending.mem_of_lookup hq)
  refine h.of_entered hc ?_ hcfg (fun d _ => ?_) (fun d _ => ?_) (fun d hd e => ?_) (fun d _ => ?_)
  · simp [heldCount, harb, hpending, howner, htune, Pending.has_erase_self hp.arb_wf, hwaiting, htuning]
  · rw [harb]; exact Pending.has_of_has_erase hp.arb_wf
  · rw [hpending]; exact id
  · rw [howner] at e; exact absurd (Option.some.inj e).symm hd
  · rw [htune]; exact id

/-- A waiting TUNE_CGEN that goes on to its first attempt moves from `tune.pending` to the tuner (rule R162). -/
theorem ClientInv.of_waitGo (h : ClientInv s) (hp : PendingInv s) {c : ClientId} {q : TuneRequest}
    (hq : Pending.lookup c s.tunePending = some q) (hcfg : t.cfg = s.cfg) (harb : t.arbPending = s.arbPending)
    (hpending : t.tunePending = Pending.erase c s.tunePending) (hseq : t.seq = s.seq)
    (htune : t.tune.owner = some c) : ClientInv t := by
  obtain ⟨hwaiting, hgranted, -⟩ := only_in_tunePending (h.one_outstanding c) (has_of_lookup hq)
  have hc := hp.tune_client _ (Pending.mem_of_lookup hq)
  refine h.of_entered hc ?_ hcfg (fun d _ => ?_) (fun d _ => ?_) (fun d _ => ?_) (fun d hd e => ?_)
  · simp [heldCount, harb, hpending, hseq, htune, Pending.has_erase_self hp.tune_wf, hwaiting, hgranted]
  · rw [harb]; exact id
  · rw [hpending]; exact Pending.has_of_has_erase hp.tune_wf
  · rw [hseq]; exact id
  · rw [htune] at e; exact absurd (Option.some.inj e).symm hd

/-- Every effect keeps rules R43 and R220: a client that enters a place had nothing outstanding, or left another. -/
theorem Effect.clientInv {turn : Turn} (h : Effect s turn t) (hs : ClientInv s) (hp : PendingInv s) : ClientInv t := by
  cases h with
  | hold | answer | bridge | wrMosi | wrCtrl | pollAgain | readDone | attemptNext =>
    exact hs.of_left rfl (fun _ => id) (fun _ => id) (fun _ => id) (fun _ => id)
  | timeoutSingle | timeoutMany => exact hs.of_left rfl (fun _ => id) (fun _ => id) (by simp) (fun _ => id)
  | doneSingle _ _ _ _ _ hc | doneLast _ _ _ _ _ hc =>
    obtain ⟨_, _, _, _, rfl⟩ := hc.frame
    exact hs.of_left rfl (fun _ => id) (fun _ => id) (by simp) (fun _ => id)
  | doneNext _ _ _ _ _ _ hc =>
    obtain ⟨_, _, _, _, rfl⟩ := hc.frame
    exact hs.of_left rfl (fun _ => id) (fun _ => id) (fun _ => id) (fun _ => id)
  | tuneFail | attemptOk | attemptLast =>
    exact hs.of_left rfl (fun _ => id) (fun _ => id) (fun _ => id) (by simp)
  | waitFail =>
    exact hs.of_left rfl (fun _ => id) (fun _ => Pending.has_of_has_erase hp.tune_wf) (fun _ => id) (by simp)
  | reset => exact .of_reset rfl rfl rfl rfl
  | grantEmpty | grantReg =>
    exact hs.of_left rfl (fun _ => Pending.has_of_has_erase hp.arb_wf) (fun _ => id) (by simp) (fun _ => id)
  | grantSingle _ _ _ _ _ hq | grantMany _ _ _ _ _ _ hq => exact hs.of_granted hp hq rfl rfl rfl rfl rfl
  | waitGo _ _ _ _ hq => exact hs.of_waitGo hp hq rfl rfl rfl rfl rfl
  | accept _ _ _ hc ho =>
    obtain ⟨-, hwaiting, hgranted, htuning⟩ := outstanding_eq_false_iff.mp ho
    exact hs.of_entered hc (by simp [heldCount, hwaiting, hgranted, htuning]) rfl
      (fun _ => Pending.has_of_has_insert) (fun _ _ => id) (fun _ _ => id) (fun _ _ => id)
  | tuneWait _ _ _ hc ho =>
    obtain ⟨hwaiting, -, hgranted, htuning⟩ := outstanding_eq_false_iff.mp ho
    exact hs.of_entered hc (by simp [heldCount, hwaiting, hgranted, htuning]) rfl
      (fun _ _ => id) (fun _ => Pending.has_of_has_insert) (fun _ _ => id) (fun _ _ => id)
  | tuneGo c _ _ _ hc ho =>
    obtain ⟨hbus, hwaiting, hgranted, -⟩ := outstanding_eq_false_iff.mp ho
    exact hs.of_entered hc (by simp [heldCount, tuneStarted, hbus, hwaiting, hgranted]) rfl (fun _ _ => id)
      (fun _ _ => id) (fun _ _ => id) (fun d hd e => absurd (Option.some.inj e).symm hd)

/-! ### The bridge's slot -/

theorem SlotInv.of_eq (h : SlotInv s) (hst : t.seq.st = s.seq.st) (hslot : t.bridge.slot = s.bridge.slot) :
    SlotInv t := ⟨by rw [hst, hslot]; exact h.poll_busy, by rw [hst, hslot]; exact h.rdMiso_idle⟩

/-- Outside POLL and RD_MISO the rules say nothing of the slot. -/
theorem SlotInv.of_other (hpoll : t.seq.st ≠ .poll) (hmiso : t.seq.st ≠ .rdMiso) : SlotInv t :=
  ⟨fun e => absurd e hpoll, fun e => absurd e hmiso⟩

/-- Every effect keeps the slot busy in POLL and free in RD_MISO (rules R29, R239 and R240). -/
theorem Effect.slotInv {turn : Turn} (h : Effect s turn t) (hs : SlotInv s) : SlotInv t := by
  cases h with
  | hold | answer | accept | tuneWait | tuneFail | tuneGo | waitFail | waitGo | attemptOk | attemptLast
  | attemptNext | grantEmpty | grantReg => exact hs.of_eq rfl rfl
  | grantSingle | grantMany | wrMosi | timeoutSingle | timeoutMany | doneSingle | doneLast | doneNext | reset =>
    exact .of_other (by simp [Seq.reset]) (by simp [Seq.reset])
  | wrCtrl => exact ⟨fun _ => rfl, by simp⟩
  | pollAgain _ _ _ _ h hd => exact hs.of_eq rfl (by simp [Bridge.onRead, hd])
  | readDone _ _ _ _ _ hd => exact ⟨by simp, fun _ => by simp [Bridge.onRead, hd]⟩
  | bridge h => exact ⟨fun e => absurd e h, fun _ => rfl⟩

/-! ### The invariant of the block -/

/-- The turns still to be taken are not part of the invariant. -/
theorem Inv.of_turns_taken (h : Inv s) (rest : List Turn) : Inv { s with turns := rest } :=
  ⟨h.seqInv.of_seq_eq rfl, h.pollInv.of_eq rfl rfl rfl, h.batchInv.of_eq rfl rfl rfl rfl, h.tuneInv.of_eq rfl rfl,
    h.pendingInv.of_eq rfl rfl rfl, h.clientInv.of_left rfl (fun _ => id) (fun _ => id) (fun _ => id) (fun _ => id),
    h.slotInv.of_eq rfl rfl⟩

/-- Every effect of a turn keeps the invariant. -/
theorem Effect.inv {turn : Turn} (h : Effect s turn t) (hs : Inv s) : Inv t :=
  ⟨h.seqInv hs.seqInv, h.pollInv hs.pollInv, h.batchInv hs.batchInv hs.pendingInv, h.tuneInv hs.tuneInv hs.pendingInv,
    h.pendingInv hs.pendingInv, h.clientInv hs.clientInv hs.pendingInv, h.slotInv hs.slotInv⟩

/-- Settles O48: the invariant over the effects of the turn that is taken. -/
theorem everyStepKeepsTheInvariant : Obligations.EveryStepKeepsTheInvariant := by
  intro s t hs h
  rcases step_cases h with ⟨_, rfl⟩ | ⟨turn, rest, _, heffect⟩
  · exact hs
  · exact heffect.inv (hs.of_turns_taken rest)

/-! ### No fault from the invariant -/

@[simp] theorem noFault_next (t : State) : NoFault (.next t) := by intro f; simp

@[simp] theorem noFault_refused (r : Refusal) : NoFault (.refused r) := by intro f; simp

/-- A TUNE_CGEN starts with no fault: with a budget there is a first candidate (rule R163). -/
theorem noFault_beginTune (c : ClientId) (freq : Freq) (cands : List Word) (s : State) :
    NoFault (beginTune c freq cands s) := by
  simp only [beginTune]
  split
  · exact noFault_next _
  · rename_i hb
    cases cands with
    | nil => exact absurd rfl hb
    | cons => exact noFault_next _

/-- A request that is no SPI command runs with no fault in any state. -/
theorem noFault_exec {i : Instr} (hwrite : ∀ a v, i ≠ .spiWrite a v) (hread : ∀ a, i ≠ .spiRead a) (s : State) :
    NoFault (exec i s) := by
  cases i with
  | spiWrite a v => exact absurd rfl (hwrite a v)
  | spiRead a => exact absurd rfl (hread a)
  | encodeWrite => simp only [exec, execEncodeWrite]; split <;> exact noFault_next _
  | encodeRead => simp only [exec, execEncodeRead]; split <;> exact noFault_next _
  | decode | transact | clksel | reserved => exact noFault_next _
  | transactMany =>
    simp only [exec, execTransactMany]
    split
    · exact noFault_next _
    · exact noFault_refused _
  | regRead32 => simp only [exec, execRegRead32]; split <;> exact noFault_next _
  | tuneCgen freq cands =>
    simp only [exec, execTuneCgen]
    split_ifs
    · exact noFault_refused _
    · exact noFault_refused _
    · exact noFault_next _
    · exact noFault_beginTune _ _ _ _

theorem noFault_present (c : ClientId) (d : Descriptor) (rest : List PortLine) (s : State) :
    NoFault (present c d rest s) := by
  obtain ⟨hwrite, hread⟩ := decodeRequest_not_spi d
  unfold present
  split
  · exact noFault_refused _
  · rename_i i hi
    exact noFault_exec (fun a v e => hwrite a v (e ▸ hi)) (fun a e => hread a (e ▸ hi)) _

theorem noFault_clientTurn (c : ClientId) (s : State) : NoFault (clientTurn c s) := by
  unfold clientTurn
  split_ifs
  · exact noFault_refused _
  · exact noFault_next _
  · split
    · exact noFault_next _
    · exact noFault_present _ _ _ _

/-- What the end of a transaction reads (rule R50): a client, and a mode of a transaction whose batch, in mode MANY, has
its command in progress. -/
structure Endable (s : State) : Prop where
  held : ∃ c, s.seq.owner = some c
  mode : s.seq.mode = some .single ∨ s.seq.mode = some .many
  in_batch : s.seq.mode = some .many → s.batch.idx < s.batch.cmds.length

theorem Endable.of_eq (h : Endable s) (howner : t.seq.owner = s.seq.owner) (hmode : t.seq.mode = s.seq.mode)
    (hbatch : t.batch = s.batch) : Endable t :=
  ⟨howner ▸ h.held, hmode ▸ h.mode, hmode ▸ hbatch ▸ h.in_batch⟩

/-- In every state of the invariant a transaction in progress can end. -/
theorem Inv.endable (h : Inv s) (hst : s.seq.st ≠ .idle) : Endable s := by
  obtain ⟨cmd, c, m, hcmd, hc, hm, hreg⟩ := h.seqInv.held hst
  refine ⟨⟨c, hc⟩, ?_, fun hmany => ?_⟩
  · cases m <;> simp_all
  · have hat := (h.batchInv.at_idx hmany).trans hcmd
    exact (List.getElem?_eq_some_iff.mp hat).1

theorem noFault_complete (h : Endable s) (r : Response) : NoFault (complete r s) := by
  obtain ⟨c, hc⟩ := h.held
  rcases h.mode with hm | hm
  · simp [complete, hm, hc]
  · have hidx := h.in_batch hm
    simp only [complete, hm, hc, batchNext, batchGoOn]
    split
    · exact noFault_next _
    · rename_i hne
      have hlt : s.batch.idx + 1 < s.batch.cmds.length := lt_of_le_of_ne hidx hne
      simp [hlt]

theorem noFault_fail (h : Endable s) (e : ErrCode) : NoFault (fail e s) := by
  obtain ⟨c, hc⟩ := h.held
  rcases h.mode with hm | hm <;> simp [fail, hm, hc, batchAbort]

theorem noFault_pollNotDone (h : Endable s) : NoFault (pollNotDone s) := by
  unfold pollNotDone
  split
  · exact noFault_fail (s := setTimeoutSeen s) (h.of_eq rfl rfl rfl) _
  · exact noFault_next _

/-- A register access of a command in progress, which in RD_MISO is a Read (rule R25), is made with no fault. -/
theorem noFault_exec_ofCommand {cmd : Command} (h : Endable s) (hst : s.seq.st ≠ .idle)
    (hread : s.seq.st = .rdMiso → ∃ a, cmd = .read a) : NoFault (exec (Instr.ofCommand cmd) s) := by
  have hpoll : Endable (pollRead s) := h.of_eq rfl rfl rfl
  cases cmd with
  | write a v =>
    simp only [Instr.ofCommand, exec, execSpiWrite]
    cases hs : s.seq.st with
    | idle => exact absurd hs hst
    | wrMosi | wrCtrl => exact noFault_next _
    | poll =>
      dsimp only
      split
      · exact noFault_complete hpoll _
      · exact noFault_pollNotDone hpoll
    | rdMiso => obtain ⟨b, hb⟩ := hread hs; cases hb
  | read a =>
    simp only [Instr.ofCommand, exec, execSpiRead]
    cases hs : s.seq.st with
    | idle => exact absurd hs hst
    | wrMosi | wrCtrl => exact noFault_next _
    | poll =>
      dsimp only
      split
      · exact noFault_next _
      · exact noFault_pollNotDone hpoll
    | rdMiso => exact noFault_complete (s := regRead .spiMiso s) (h.of_eq rfl rfl rfl) _

theorem noFault_seqTurn (h : Inv s) (pick : ClientId) (draw : Word) : NoFault (seqTurn pick draw s) := by
  unfold seqTurn
  split_ifs with hst
  · exact noFault_next _
  · exact noFault_next _
  · obtain ⟨cmd, _, _, hcmd, -⟩ := h.seqInv.held hst
    simp only [seqAccess, hcmd]
    refine noFault_exec_ofCommand ((h.endable hst).of_eq rfl rfl rfl) hst fun hmiso => ?_
    obtain ⟨a, ha⟩ := h.seqInv.rdMiso_read hmiso
    exact ⟨a, Option.some.inj (hcmd.symm.trans ha)⟩

theorem noFault_startPendingTune (pick : ClientId) (s : State) : NoFault (startPendingTune pick s) := by
  unfold startPendingTune
  split
  · exact noFault_next _
  · split
    · exact noFault_next _
    · exact noFault_beginTune _ _ _ _

/-- An answer finds the owner it is for, and after a failure within the budget the next candidate (rules R163, R165 and
R166). -/
theorem noFault_tuneAnswer (h : TuneInv s) (answer : TuneResult) : NoFault (tuneAnswer answer s) := by
  unfold tuneAnswer
  split
  · rename_i hw
    obtain ⟨hst, hfreq, hbudget, hidx⟩ := h.searching (Bool.and_eq_true_iff.mp hw).1
    obtain ⟨c, hc⟩ := Option.isSome_iff_exists.mp (h.owner_iff.mpr hst)
    obtain ⟨f, hf⟩ := Option.ne_none_iff_exists'.mp hfreq
    cases answer with
    | ok => simp [attemptOk, hc]
    | err =>
      simp only [attemptErr, hc]
      split
      · exact noFault_next _
      · have hcands := (tuneBudget_le s.tune.cands).2
        have hlt : s.tune.idx + 1 < s.tune.cands.length := by omega
        simp [attempt, hlt, hf]
  · exact noFault_next _

theorem noFault_takeTurn (h : Inv s) (turn : Turn) : NoFault (takeTurn turn s) := by
  cases turn with
  | client c => exact noFault_clientTurn c s
  | seq pick draw => exact noFault_seqTurn h pick draw
  | tuner pick => exact noFault_startPendingTune pick s
  | rflib answer => exact noFault_tuneAnswer h.tuneInv answer
  | bridge => simp only [takeTurn, bridgeTurn]; split <;> exact noFault_next _
  | reset slot => exact noFault_next _

/-- Settles O49: the turn that is taken, agent by agent. -/
theorem noStepFaultsFromTheInvariant : Obligations.NoStepFaultsFromTheInvariant := by
  intro s h
  unfold step runTurn
  split
  · exact noFault_next _
  · exact noFault_takeTurn (h.of_turns_taken _) _

/-! ### What a step appends to the histories -/

/-- Rule R27: the accesses the block makes, with the start word at SPI_CONTROL. -/
def Access.Permitted (cfg : Config.Build) (a : Access) : Prop :=
  (a.kind = .write → a.reg = .spiMosi ∨ (a.reg = .spiControl ∧ a.word = cfg.ctrlStartWord)) ∧
  (a.kind = .read → a.reg = .spiStatus ∨ a.reg = .spiMiso ∨ a.reg = .ctrlScratch)

/-- The bus order stays, or one permitted access is appended. -/
theorem Effect.access_cases {turn : Turn} (h : Effect s turn t) :
    t.bus = s.bus ∨ ∃ a, t.bus = s.bus ++ [a] ∧ a.Permitted s.cfg := by
  cases h with
  | hold | answer | accept | tuneWait | tuneFail | tuneGo | grantSingle | grantMany | grantEmpty | waitFail | waitGo
  | attemptOk | attemptLast | attemptNext | bridge | reset => exact .inl rfl
  | grantReg | wrMosi | wrCtrl | pollAgain | timeoutSingle | timeoutMany | readDone =>
    exact .inr ⟨_, rfl, by simp [Access.Permitted]⟩
  | doneSingle _ _ _ _ _ hc | doneLast _ _ _ _ _ hc | doneNext _ _ _ _ _ _ hc =>
    obtain ⟨_, _, _, hreg, rfl⟩ := hc.frame
    exact .inr ⟨_, rfl, by rcases hreg with rfl | rfl <;> simp [Access.Permitted]⟩

/-- Settles O52: the access appended is the permitted one of the effect. -/
theorem accessRights : Obligations.AccessRights := by
  intro s t a h hbus
  rcases step_cases h with ⟨_, rfl⟩ | ⟨turn, rest, _, heffect⟩
  · simp at hbus
  · rcases heffect.access_cases with hsame | ⟨b, hb, hpermitted⟩
    · simp [hsame] at hbus
    · obtain rfl : b = a := by simpa [hb] using hbus
      exact hpermitted

/-- Rules R36, R44, R185 and R207: the results stay, or one is appended; an error has no data, and a timeout leaves
`sts.timeout_seen` at 1. -/
theorem Effect.results_cases {turn : Turn} (h : Effect s turn t) :
    t.results = s.results ∨
    ∃ c r, t.results = s.results ++ [⟨c, r⟩] ∧ (r.code ≠ .ok → r.data = .none) ∧
      (r.code = .transactionTimeout → t.timeoutSeen = true) := by
  cases h with
  | hold | accept | tuneWait | tuneGo | grantSingle | grantMany | wrMosi | wrCtrl | pollAgain | readDone | waitGo
  | attemptNext | bridge | reset => exact .inl rfl
  | answer c r _ _ _ hr hd => exact .inr ⟨c, r, rfl, hd, fun e => absurd e hr⟩
  | tuneFail | waitFail | attemptOk | attemptLast | grantEmpty | grantReg =>
    exact .inr ⟨_, _, rfl, by simp [okResult], by simp [okResult]⟩
  | timeoutSingle | timeoutMany => exact .inr ⟨_, _, rfl, fun _ => rfl, fun _ => rfl⟩
  | doneSingle _ _ _ _ _ hc | doneLast _ _ _ _ _ hc =>
    obtain ⟨_, _, _, _, rfl⟩ := hc.frame
    exact .inr ⟨_, _, rfl, by simp [okResult], by simp [okResult]⟩
  | doneNext _ _ _ _ _ _ hc =>
    obtain ⟨_, _, _, _, rfl⟩ := hc.frame
    exact .inl rfl

/-- Settles O56: the results over the effects of the turn that is taken. -/
theorem atMostOneResultPerStep : Obligations.AtMostOneResultPerStep := by
  intro s t h
  rcases step_cases h with ⟨_, rfl⟩ | ⟨turn, rest, _, heffect⟩
  · exact .inl rfl
  · rcases heffect.results_cases with hsame | ⟨c, r, hr, hdata, -⟩
    · exact .inl hsame
    · exact .inr ⟨c, r, hr, hdata⟩

/-- Rule R36: reset clears `sts.timeout_seen`, and nothing else does. -/
theorem Effect.timeoutSeen_kept_or_cleared {turn : Turn} (h : Effect s turn t) :
    (turn.isReset = false → s.timeoutSeen = true → t.timeoutSeen = true) ∧
    (turn.isReset = true → t.timeoutSeen = false) := by
  cases h with
  | hold _ hn => exact ⟨fun _ => id, by simp [hn]⟩
  | answer | accept | tuneWait | tuneFail | tuneGo | grantSingle | grantMany | grantEmpty | grantReg | wrMosi
  | wrCtrl | pollAgain | readDone | waitFail | waitGo | attemptOk | attemptLast | attemptNext
  | bridge => exact ⟨fun _ => id, by simp [Turn.isReset]⟩
  | timeoutSingle | timeoutMany => exact ⟨fun _ _ => rfl, by simp [Turn.isReset]⟩
  | doneSingle _ _ _ _ _ hc | doneLast _ _ _ _ _ hc | doneNext _ _ _ _ _ _ hc =>
    obtain ⟨_, _, _, _, rfl⟩ := hc.frame
    exact ⟨fun _ => id, by simp [Turn.isReset]⟩
  | reset => exact ⟨by simp [Turn.isReset], fun _ => rfl⟩

theorem resetNext_of_turns {turn : Turn} {rest : List Turn} (h : s.turns = turn :: rest) :
    resetNext s = turn.isReset := by simp [resetNext, h]

/-- Settles O55: the flag and the results over the effects of the turn that is taken. -/
theorem timeoutFlagIsSticky : Obligations.TimeoutFlagIsSticky := by
  refine ⟨rfl, fun s t h => ?_⟩
  rcases step_cases h with ⟨hturns, rfl⟩ | ⟨turn, rest, hturns, heffect⟩
  · simp [resetNext, hturns]
  · rw [resetNext_of_turns hturns]
    refine ⟨fun c info d hr => ?_, heffect.timeoutSeen_kept_or_cleared⟩
    rcases heffect.results_cases with hsame | ⟨c', r, hr', -, htimeout⟩
    · simp [hsame] at hr
    · obtain ⟨-, rfl⟩ : c' = c ∧ r = ⟨.transactionTimeout, info, d⟩ := by simpa [hr'] using hr
      exact htimeout rfl

/-- Rules R47 and R237: the parameters stay, and at most tune calls are added to those made. -/
theorem Effect.cfg_and_calls {turn : Turn} (h : Effect s turn t) : t.cfg = s.cfg ∧ s.calls <+: t.calls := by
  cases h with
  | hold | answer | accept | tuneWait | tuneFail | grantSingle | grantMany | grantEmpty | grantReg | wrMosi | wrCtrl
  | pollAgain | readDone | timeoutSingle | timeoutMany | waitFail | attemptOk | attemptLast | bridge | reset =>
    exact ⟨rfl, List.prefix_rfl⟩
  | tuneGo | waitGo | attemptNext => exact ⟨rfl, List.prefix_append _ _⟩
  | doneSingle _ _ _ _ _ hc | doneLast _ _ _ _ _ hc | doneNext _ _ _ _ _ _ hc =>
    obtain ⟨_, _, _, _, rfl⟩ := hc.frame
    exact ⟨rfl, List.prefix_rfl⟩

/-- Settles O57: each history over the effects of the turn that is taken. -/
theorem parametersNeverChange : Obligations.ParametersNeverChange := by
  intro s t h
  rcases step_cases h with ⟨_, rfl⟩ | ⟨turn, rest, _, heffect⟩
  · exact ⟨rfl, List.prefix_rfl, List.prefix_rfl, List.prefix_rfl⟩
  · obtain ⟨hcfg, hcalls⟩ := heffect.cfg_and_calls
    refine ⟨hcfg, ?_, ?_, hcalls⟩
    · rcases heffect.bus_cases with hbus | ⟨a, _, _, hbus, -⟩ <;> simp [hbus]
    · rcases heffect.results_cases with hr | ⟨c, r, hr, -⟩ <;> simp [hr]

/-! ### Reset -/

/-- Rule R232: the reset values meet the invariant, whatever the external registers and the slot hold. -/
theorem Inv.of_reset (hseq : t.seq = Seq.reset) (hbatch : t.batch = Batch.reset) (htune : t.tune = Tune.reset)
    (harb : t.arbPending = []) (hpending : t.tunePending = []) : Inv t where
  seqInv := .of_free (by rw [hseq]; rfl) (by rw [hseq]; rfl) (by rw [hseq]; rfl) (by rw [hseq]; rfl)
  pollInv := .of_zero (by rw [hseq]; rfl)
  batchInv := .of_not_many (by simp [hseq, Seq.reset]) (by simp [hbatch, Batch.reset])
  tuneInv := .of_reset htune
  pendingInv := .of_empty harb hpending
  clientInv := .of_reset harb hpending hseq htune
  slotInv := .of_other (by simp [hseq, Seq.reset]) (by simp [hseq, Seq.reset])

/-- A step with a turn left is the step of the agent it names (rule R212). -/
theorem step_turn {turn : Turn} {rest : List Turn} (h : s.turns = turn :: rest) :
    step s = takeTurn turn { s with turns := rest } := by
  simp [step, runTurn, h]

/-- A free slot meets the single-slot discipline (rules R235 and R239). -/
theorem SingleSlot.of_idle (h : t.bridge.slot = .idle) : SingleSlot t := by simp [SingleSlot, h]

/-- Settles O47: at power-up and after a reset turn every internal register has its reset value. -/
theorem resetMeetsTheInvariant : Obligations.ResetMeetsTheInvariant := by
  refine ⟨.of_reset rfl rfl rfl rfl rfl, fun cfg bridge => ⟨.of_reset rfl rfl rfl rfl rfl, .of_idle⟩,
    fun s slot rest h => ⟨_, step_turn h, .of_reset rfl rfl rfl rfl rfl, fun hslot => ⟨hslot, .of_idle hslot⟩⟩⟩

/-- Settles O46: each register reads its reset value, at power-up and after a reset turn. -/
theorem resetValues : Obligations.ResetValues := by
  refine ⟨?_, fun s slot rest h => ⟨_, step_turn h, ?_, rfl, rfl, rfl, rfl, rfl, rfl⟩⟩ <;> and_intros <;> rfl

/-! ### The accesses of a transaction -/

/-- The STATUS read that shows done counts and frees the slot (rules R29 and R135). -/
theorem pollRead_of_done (h : s.busAnswer &&& s.cfg.statusDoneMask ≠ 0) :
    pollRead s = { s with seq := { s.seq with polls := s.seq.polls + 1 },
                          bridge := { s.bridge with status := s.busAnswer, slot := .idle },
                          bus := s.bus ++ [⟨s.seq.owner, .read, .spiStatus, s.busAnswer⟩] } := by
  simp [pollRead, regRead, Bridge.onRead, (statusDone_iff _ _).mpr h]

/-- A completed transaction of mode SINGLE delivers its response and releases the grant (rule R138). -/
theorem complete_single {c : ClientId} (hmode : s.seq.mode = some .single) (howner : s.seq.owner = some c)
    (r : Response) :
    complete r s =
      .next { s with seq := { st := .idle, cmd := none, polls := s.seq.polls, owner := none, mode := none },
                     results := s.results ++ [⟨c, ⟨.ok, 0, .response r⟩⟩] } := by
  simp [complete, hmode, howner, release, deliver, endTransaction, okResult]

/-- Settles O20: both commands make the write of WR_CTRL. -/
theorem controlStepStartsTheTransfer : Obligations.ControlStepStartsTheTransfer := by
  intro cmd s hst
  cases cmd with
  | write => simp [Instr.ofCommand, exec, execSpiWrite, hst, stepWrCtrl, regWrite, Bridge.onWrite]
  | read => simp [Instr.ofCommand, exec, execSpiRead, hst, stepWrCtrl, regWrite, Bridge.onWrite]

/-- Settles O24: the done read and then the end of the transaction. -/
theorem doneCompletesSpiWrite : Obligations.DoneCompletesSpiWrite := by
  intro a v s c hst hdone hmode howner
  have hexec : exec (.spiWrite a v) s = complete .noPayload (pollRead s) := by
    simp [exec, execSpiWrite, hst, (statusDone_iff _ _).mpr hdone]
  rw [hexec, complete_single (s := pollRead s) hmode howner, pollRead_of_done hdone, howner]

/-- Settles O25: the done read and then RD_MISO. -/
theorem doneLeadsSpiReadToMiso : Obligations.DoneLeadsSpiReadToMiso := by
  intro a s hst hdone
  simp [exec, execSpiRead, hst, (statusDone_iff _ _).mpr hdone, pollRead_of_done hdone]

/-! ### The tuner and the client ports -/

/-- Settles O36: it is inserted for the presenting client, and a lookup of any other finds what it found. -/
theorem tuneWaitsWhileAnotherRuns : Obligations.TuneWaitsWhileAnotherRuns := by
  intro freq cands s hfreq hlen hst
  refine ⟨Pending.insert s.portClient ⟨freq, cands⟩ s.tunePending, ?_, Pending.lookup_insert_self _ _ _,
    fun c hc => Pending.lookup_insert_ne _ _ hc⟩
  simp [exec, execTuneCgen, hfreq, (fits_iff _ _).mpr hlen, hst]

/-- A success answered to a library that waits for nothing (rule R165). -/
theorem tuneAnswer_ok (hw : s.tune.waiting = true) (hb : rflibBusy s = false) :
    tuneAnswer .ok s = attemptOk s := by simp [tuneAnswer, hw, hb]

/-- A failure answered by a library that waits for nothing (rule R166). -/
theorem tuneAnswer_err (hw : s.tune.waiting = true) (hb : rflibBusy s = false) :
    tuneAnswer .err s = attemptErr s := by simp [tuneAnswer, hw, hb]

/-- With no call outstanding, or a request of its own, the library has no step (rules R43 and R208). -/
theorem tuneAnswer_of_disabled (h : s.tune.waiting = false ∨ rflibBusy s = true) (answer : TuneResult) :
    tuneAnswer answer s = .next s := by
  rcases h with h | h <;> simp [tuneAnswer, h]

/-- Settles O38: the library's turn is the success of the attempt. -/
theorem attemptSuccessEndsTheTune : Obligations.AttemptSuccessEndsTheTune := by
  intro s c rest hturns hw hb howner
  have hstep : step s = attemptOk { s with turns := rest } := (step_turn hturns).trans (tuneAnswer_ok hw hb)
  simp [hstep, attemptOk, howner, deliver]

/-- Settles O39: the library's turn is the failure of the attempt, the last of its budget or not. -/
theorem attemptFailureTriesTheNextCandidate : Obligations.AttemptFailureTriesTheNextCandidate := by
  intro s c rest hturns hw hb howner
  have hstep : step s = attemptErr { s with turns := rest } := (step_turn hturns).trans (tuneAnswer_err hw hb)
  refine ⟨fun hlast => ?_, fun div freq hmore hdiv hfreq => ?_⟩
  · simp [hstep, attemptErr, hlast, howner, raiseError, deliver]
  · simp [hstep, attemptErr, hmore, attempt, hdiv, hfreq, clkCode]

theorem clientExists_iff {cfg : Config.Build} {c : ClientId} : clientExists cfg c = true ↔ c < cfg.numClients := by
  simp [clientExists]

/-- No line of a client in the port, no next line of it. -/
theorem takeLine_eq_none {c : ClientId} {port : List PortLine} (h : ∀ l ∈ port, l.client ≠ c) :
    takeLine c port = none := by
  induction port with
  | nil => rfl
  | cons l t ih => simp [takeLine, h l (by simp), ih fun x hx => h x (by simp [hx])]

/-- A free client with a line that decodes runs its request (rules R43 and R95). -/
theorem clientTurn_of_line {c : ClientId} {d : Descriptor} {i : Instr} {rest : List PortLine}
    (hc : clientExists s.cfg c = true) (hfree : outstanding c s = false) (hline : takeLine c s.port = some (d, rest))
    (hdecode : decodeRequest d = .ok i) : clientTurn c s = exec i { s with portClient := c, port := rest } := by
  simp [clientTurn, hc, hfree, hline, present, hdecode]

/-- A client whose request is outstanding, or with no line, presents nothing (rule R43). -/
theorem clientTurn_of_disabled {c : ClientId} (hc : clientExists s.cfg c = true)
    (h : outstanding c s = true ∨ takeLine c s.port = none) : clientTurn c s = .next s := by
  rcases h with h | h <;> simp [clientTurn, hc, h]

/-- A busy tuner, or one whose pick does not wait, starts nothing (rule R162). -/
theorem startPendingTune_of_disabled {pick : ClientId}
    (h : s.tune.st = .searching ∨ Pending.lookup pick s.tunePending = none) : startPendingTune pick s = .next s := by
  rcases h with h | h <;> simp [startPendingTune, h]

/-- The three places in which a request of the RF control library keeps it from answering (rules R43 and R208). -/
theorem rflibBusy_iff :
    rflibBusy s = true ↔ Pending.has s.cfg.rflibClient s.arbPending = true ∨
      Pending.has s.cfg.rflibClient s.tunePending = true ∨ s.seq.owner = some s.cfg.rflibClient := by
  simp [rflibBusy, rflibSelfWait, or_assoc]

/-- Settles O43: the client's first line is the one taken. -/
theorem clientTurnRunsTheDecodedRequest : Obligations.ClientTurnRunsTheDecodedRequest := by
  intro s c d i pre post rest hturns hc hfree hport hpre hdecode
  have hline : takeLine c s.port = some (d, pre ++ post) := hport ▸ takeLine_spec c d pre post hpre
  exact (step_turn hturns).trans (clientTurn_of_line (clientExists_iff.mpr hc) hfree hline hdecode)

/-- Settles O45: agent by agent, the turn is taken and its agent has no step. -/
theorem noEnabledStepKeepsTheState : Obligations.NoEnabledStepKeepsTheState := by
  refine ⟨fun s h => ?_, fun s c rest h hc hno => ?_, fun s answer rest h hno => ?_, fun s c rest h hno => ?_,
    fun s rest h hpoll => ?_⟩
  · simp [step, runTurn, h]
  · exact (step_turn h).trans (clientTurn_of_disabled (clientExists_iff.mpr hc) (hno.imp id takeLine_eq_none))
  · rw [step_turn h]
    exact tuneAnswer_of_disabled (s := { s with turns := rest }) (hno.imp id rflibBusy_iff.mpr) answer
  · exact (step_turn h).trans (startPendingTune_of_disabled hno)
  · rw [step_turn h]
    simp [takeTurn, bridgeTurn, hpoll]

end Sys2Proof.Machine

/-! Proofs of the family of `20_memory.md`: the grant in a transaction (rules R74 and R184), the end of every poll under
a limit and the hang without one (rules R72, R136 and R215), and what other agents leave alone (rules R168 and R212). -/

namespace Sys2Proof.Machine

variable {s t u a : State}

/-! ### The grant -/

/-- Rule R184: while `c` holds the grant, an effect appends no access but for `c`, and grants no other client. -/
theorem Effect.grant_exclusive {turn : Turn} {c : ClientId} (h : Effect s turn t) (howner : s.seq.owner = some c) :
    (t.bus = s.bus ∨ ∃ k r w, t.bus = s.bus ++ [⟨some c, k, r, w⟩]) ∧
    (t.seq.owner = some c ∨ t.seq.owner = none) := by
  cases h with
  | hold | answer | accept | tuneWait | tuneFail | tuneGo | waitFail | waitGo | attemptOk | attemptLast | attemptNext
  | bridge => exact ⟨.inl rfl, .inl howner⟩
  | grantSingle _ _ _ ho | grantMany _ _ _ _ ho | grantEmpty _ _ ho | grantReg _ _ _ ho => simp [ho] at howner
  | wrMosi | wrCtrl | pollAgain | readDone =>
    exact ⟨.inr ⟨_, _, _, by rw [← howner]; rfl⟩, .inl howner⟩
  | timeoutSingle | timeoutMany => exact ⟨.inr ⟨_, _, _, by rw [← howner]; rfl⟩, .inr rfl⟩
  | doneSingle _ _ _ _ _ hc | doneLast _ _ _ _ _ hc =>
    obtain ⟨_, _, _, _, rfl⟩ := hc.frame
    exact ⟨.inr ⟨_, _, _, by rw [← howner]; rfl⟩, .inr rfl⟩
  | doneNext _ _ _ _ _ _ hc =>
    obtain ⟨_, _, _, _, rfl⟩ := hc.frame
    exact ⟨.inr ⟨_, _, _, by rw [← howner]; rfl⟩, .inl howner⟩
  | reset => exact ⟨.inl rfl, .inr rfl⟩

/-- Settles O53: the access and the grant over the effects of the turn that is taken. -/
theorem grantIsExclusive : Obligations.GrantIsExclusive := by
  intro s t c _ howner h
  rcases step_cases h with ⟨_, rfl⟩ | ⟨turn, rest, _, heffect⟩
  · exact ⟨.inl rfl, .inl howner⟩
  · exact heffect.grant_exclusive howner

/-! ### Polling without a limit -/

/-- A STATUS read that shows not-done with no limit reached is counted, and the sequencer stays in POLL (rule R136). -/
theorem exec_ofCommand_of_not_done {cmd : Command} (hst : s.seq.st = .poll)
    (hdone : s.busAnswer &&& s.cfg.statusDoneMask = 0) (hlimit : s.cfg.pollLimit ≠ some (s.seq.polls + 1)) :
    exec (Instr.ofCommand cmd) s = .next (pollRead s) := by
  have hd : statusDone s.cfg s.busAnswer = false := by simp [statusDone, hdone]
  have hagain : pollNotDone (pollRead s) = .next (pollRead s) := if_neg hlimit
  cases cmd with
  | write => simp [Instr.ofCommand, exec, execSpiWrite, hst, hd, hagain]
  | read => simp [Instr.ofCommand, exec, execSpiRead, hst, hd, hagain]

/-- Settles O32, by induction on the not-done answers: each is one more STATUS read that leaves POLL as it is. -/
theorem unboundedPollHangsOnAStuckBridge : Obligations.UnboundedPollHangsOnAStuckBridge := by
  intro s cmd c notDone rest hlimit hst hcmd howner hnotDone hturns
  induction notDone generalizing s with
  | nil => exact ⟨s, rfl, hst, howner, rfl, by simp, rfl, rfl, hturns⟩
  | cons w ws ih =>
    have hstep : step s = .next (pollRead { s with turns := seqTurns ws ++ rest, busAnswer := w }) := by
      rw [step_seq hturns (by simp [hst]) hcmd]
      exact exec_ofCommand_of_not_done hst (hnotDone w (by simp)) (by simp [hlimit])
    obtain ⟨t, hrun, htst, htowner, hpolls, hbus, hresults, harb, htturns⟩ :=
      ih (pollRead { s with turns := seqTurns ws ++ rest, busAnswer := w }) hlimit hst hcmd howner
        (fun x hx => hnotDone x (by simp [hx])) rfl
    refine ⟨t, (run_succ hstep).trans hrun, htst, htowner, ?_, ?_, hresults, harb, htturns⟩
    · simp [hpolls]; omega
    · simp [hbus, howner]

/-! ### Polling under a limit -/

theorem complete_ne_refused (r : Response) (s : State) (e : Refusal) : complete r s ≠ .refused e := by
  unfold complete batchNext batchGoOn
  split
  · simp
  · simp
  · simp
  · simp
  · split_ifs
    · simp
    · split <;> simp

theorem pollNotDone_ne_refused (s : State) (e : Refusal) : pollNotDone s ≠ .refused e := by
  unfold pollNotDone fail batchAbort
  split
  · split <;> simp
  · simp

/-- No register access is outside the domain of the block (rule R94: no command word is illegal). -/
theorem exec_ofCommand_ne_refused (cmd : Command) (s : State) (e : Refusal) :
    exec (Instr.ofCommand cmd) s ≠ .refused e := by
  cases cmd with
  | write a v =>
    simp only [Instr.ofCommand, exec, execSpiWrite]
    cases s.seq.st with
    | idle | wrMosi | wrCtrl | rdMiso => simp [stepWrMosi, stepWrCtrl]
    | poll =>
      dsimp only
      split
      · exact complete_ne_refused _ _ e
      · exact pollNotDone_ne_refused _ e
  | read a =>
    simp only [Instr.ofCommand, exec, execSpiRead]
    cases s.seq.st with
    | idle | wrMosi | wrCtrl => simp [stepWrMosi, stepWrCtrl]
    | poll =>
      dsimp only
      split
      · simp
      · exact pollNotDone_ne_refused _ e
    | rdMiso => exact complete_ne_refused _ _ e

/-- From the invariant, a turn of `Seq` in a transaction makes a register access (rules R50 and R131). -/
theorem Inv.exists_access (h : Inv s) (hst : s.seq.st ≠ .idle) {pick : ClientId} {draw : Word} {rest : List Turn}
    (hturns : s.turns = .seq pick draw :: rest) :
    ∃ cmd t, step s = .next t ∧ Accesses cmd { s with turns := rest, busAnswer := draw } t := by
  obtain ⟨cmd, _, _, hcmd, -⟩ := h.seqInv.held hst
  have hexec := step_seq hturns hst hcmd
  cases hstep : step s with
  | next t => exact ⟨cmd, t, rfl, accesses_of_exec (hexec.symm.trans hstep)⟩
  | fault f => exact absurd hstep (noStepFaultsFromTheInvariant s h f)
  | refused e => exact absurd (hexec.symm.trans hstep) (exec_ofCommand_ne_refused cmd _ e)

theorem Inv.in_transaction {c : ClientId} (h : Inv s) (howner : s.seq.owner = some c) : s.seq.st ≠ .idle :=
  h.seqInv.owner_iff.mp (by simp [howner])

/-- How many of the accesses are STATUS reads. -/
def statusReads (accesses : List Access) : Nat := accesses.countP (fun a => a.reg == .spiStatus)

@[simp] theorem statusReads_append (l m : List Access) : statusReads (l ++ m) = statusReads l + statusReads m :=
  List.countP_append

/-- At most how many turns of `Seq` the transaction in progress still takes under `P_POLL_LIMIT = n`: the two writes,
the STATUS reads left, and the SPI_MISO read (rules R133 to R137). -/
def stepsLeft (n : Nat) (s : State) : Nat :=
  match s.seq.st with
  | .idle => 0
  | .wrMosi => n + 3
  | .wrCtrl => n + 2
  | .poll => n - s.seq.polls + 1
  | .rdMiso => 1

theorem stepsLeft_le (n : Nat) (s : State) : stepsLeft n s ≤ n + 3 := by
  unfold stepsLeft
  split <;> omega

theorem stepsLeft_pos (n : Nat) (hst : s.seq.st ≠ .idle) : 0 < stepsLeft n s := by
  unfold stepsLeft
  split
  · exact absurd ‹_› hst
  all_goals omega

/-- The transaction of `s`, granted to `c`, has ended in `t` within `n` STATUS reads in all: with the grant released and
its result, or with the next command of its batch started (rules R138, R142 and R143). -/
structure TransactionEnds (n : Nat) (c : ClientId) (s t : State) : Prop where
  bus : ∃ l, t.bus = s.bus ++ l ∧ s.seq.polls + statusReads l ≤ n
  ends : (t.seq.owner = none ∧ ∃ r, t.results = s.results ++ [⟨c, r⟩]) ∨
    (s.seq.mode = some .many ∧ t.seq.owner = some c ∧ t.seq.mode = some .many ∧ t.seq.st = .wrMosi ∧
      t.batch.idx = s.batch.idx + 1 ∧ t.results = s.results)

/-- The transaction of `s` is in progress in `t`, nearer to its end, with its STATUS reads counted (rules R133 to
R136). -/
structure TransactionGoesOn (n : Nat) (s t : State) : Prop where
  bus : ∃ l, t.bus = s.bus ++ l ∧ t.seq.polls = s.seq.polls + statusReads l
  nearer : stepsLeft n t < stepsLeft n s
  owner : t.seq.owner = s.seq.owner
  mode : t.seq.mode = s.seq.mode
  batch : t.batch = s.batch
  results : t.results = s.results
  turns : t.turns = s.turns

/-- The turn taken and its draw are not part of how a transaction ends. -/
theorem TransactionEnds.of_turn_taken {n : Nat} {c : ClientId} {rest : List Turn} {draw : Word}
    (h : TransactionEnds n c { s with turns := rest, busAnswer := draw } t) : TransactionEnds n c s t :=
  ⟨h.bus, h.ends⟩

theorem TransactionEnds.of_goesOn {n : Nat} {c : ClientId} (h : TransactionEnds n c u t)
    (hgo : TransactionGoesOn n s u) : TransactionEnds n c s t := by
  obtain ⟨l, hl, hpolls⟩ := hgo.bus
  obtain ⟨m, hm, hle⟩ := h.bus
  refine ⟨⟨l ++ m, by simp [hm, hl], by rw [statusReads_append]; omega⟩, ?_⟩
  simpa only [hgo.mode, hgo.batch, hgo.results] using h.ends

/-- A transaction whose last access leads from `s` to `u` ends when it completes there (rules R138 and R142). -/
theorem TransactionEnds.of_complete {n : Nat} {c : ClientId} {r : Response} (h : complete r u = .next t)
    (howner : s.seq.owner = some c) (hseq : ∃ polls, u.seq = { s.seq with polls := polls })
    (hbatch : u.batch = s.batch) (hresults : u.results = s.results)
    (hbus : ∃ l, u.bus = s.bus ++ l ∧ s.seq.polls + statusReads l ≤ n) : TransactionEnds n c s t := by
  obtain ⟨polls, hseq⟩ := hseq
  have huowner : u.seq.owner = some c := by rw [hseq, ← howner]
  rcases complete_cases h with ⟨d, hm, ho, rfl⟩ | ⟨d, hm, ho, -, rfl⟩ | ⟨d, cmd, hm, ho, -, rfl⟩
  all_goals obtain rfl : c = d := Option.some.inj (huowner.symm.trans ho)
  · exact ⟨hbus, .inl ⟨rfl, _, congrArg (· ++ _) hresults⟩⟩
  · exact ⟨hbus, .inl ⟨rfl, _, congrArg (· ++ _) hresults⟩⟩
  · exact ⟨hbus, .inr ⟨by rw [← hm, hseq], ho, hm, rfl, by simp [hbatch], hresults⟩⟩

/-- A transaction whose last STATUS read leads from `s` to `u` ends when it fails there (rules R138 and R143). -/
theorem TransactionEnds.of_fail {n : Nat} {c : ClientId} {e : ErrCode} (h : fail e u = .next t)
    (howner : u.seq.owner = some c) (hresults : u.results = s.results)
    (hbus : ∃ l, u.bus = s.bus ++ l ∧ s.seq.polls + statusReads l ≤ n) : TransactionEnds n c s t := by
  rcases fail_cases h with ⟨d, _, ho, rfl⟩ | ⟨d, _, ho, rfl⟩
  all_goals obtain rfl : c = d := Option.some.inj (howner.symm.trans ho)
  all_goals exact ⟨hbus, .inl ⟨rfl, _, congrArg (· ++ _) hresults⟩⟩

/-- Under `P_POLL_LIMIT = n` each access ends the transaction or brings it nearer to its end (rule R72). -/
theorem Accesses.ends_or_goesOn {cmd : Command} {n : Nat} {c : ClientId} (h : Accesses cmd s t) (hs : PollInv s)
    (hlimit : s.cfg.pollLimit = some n) (howner : s.seq.owner = some c) :
    TransactionEnds n c s t ∨ TransactionGoesOn n s t := by
  have hmax := hs.at_most_limit n hlimit
  cases h with
  | wrMosi h => exact .inr ⟨⟨_, rfl, rfl⟩, by simp [stepsLeft, h], rfl, rfl, rfl, rfl, rfl⟩
  | wrCtrl h => exact .inr ⟨⟨_, rfl, rfl⟩, by simp [stepsLeft, h], rfl, rfl, rfl, rfl, rfl⟩
  | pollAgain h =>
    have hlt := hs.succ_le h hlimit
    exact .inr ⟨⟨_, rfl, rfl⟩, by simp [stepsLeft, h]; omega, rfl, rfl, rfl, rfl, rfl⟩
  | readDone _ _ h =>
    have hlt := hs.succ_le h hlimit
    exact .inr ⟨⟨_, rfl, rfl⟩, by simp [stepsLeft, h]; omega, rfl, rfl, rfl, rfl, rfl⟩
  | timeout t h _ _ hf => exact .inl (.of_fail hf howner rfl ⟨_, rfl, hs.succ_le h hlimit⟩)
  | writeDone t _ _ _ h _ hc =>
    exact .inl (.of_complete hc howner ⟨_, rfl⟩ rfl rfl ⟨_, rfl, hs.succ_le h hlimit⟩)
  | rdMiso t _ _ _ hc => exact .inl (.of_complete hc howner ⟨_, rfl⟩ rfl rfl ⟨_, rfl, hmax⟩)

/-- Under `P_POLL_LIMIT = n` the transaction in progress ends within `stepsLeft` turns of `Seq`, by induction on the
draws of those turns. -/
theorem exists_run_transactionEnds {n : Nat} {c : ClientId} {draws : List Word} (hs : Inv s)
    (hlimit : s.cfg.pollLimit = some n) (howner : s.seq.owner = some c) (hturns : s.turns = seqTurns draws)
    (hdraws : stepsLeft n s ≤ draws.length) :
    ∃ k t, k ≤ stepsLeft n s ∧ Host.Core.run Sys2Proof.core k s = .next t ∧ TransactionEnds n c s t := by
  induction draws generalizing s with
  | nil => exact absurd hdraws (Nat.not_le_of_gt (stepsLeft_pos n (hs.in_transaction howner)))
  | cons w ws ih =>
    have hst := hs.in_transaction howner
    obtain ⟨cmd, u, hstep, haccess⟩ := hs.exists_access hst hturns
    rcases haccess.ends_or_goesOn (hs.pollInv.of_eq rfl rfl rfl) hlimit howner with hends | hgo
    · exact ⟨1, u, stepsLeft_pos n hst, run_succ hstep, hends.of_turn_taken⟩
    · have hnearer : stepsLeft n u < stepsLeft n s := hgo.nearer
      obtain ⟨hcfg, -⟩ := parametersNeverChange s u hstep
      obtain ⟨k, t, hk, hrun, hends⟩ := ih (everyStepKeepsTheInvariant s u hs hstep) (hcfg ▸ hlimit)
        (hgo.owner.trans howner) hgo.turns (by simp only [List.length_cons] at hdraws; omega)
      exact ⟨k + 1, t, by omega, (run_succ hstep).trans hrun, (hends.of_goesOn hgo).of_turn_taken⟩

/-- Settles O33: the transaction ends within `stepsLeft` turns, which are `n + 3` at most. -/
theorem boundedPollEndsEveryTransaction : Obligations.BoundedPollEndsEveryTransaction := by
  intro s n c draws hs hlimit howner hturns hlength
  have hle := stepsLeft_le n s
  obtain ⟨k, t, hk, hrun, ⟨l, hbus, hreads⟩, hends⟩ :=
    exists_run_transactionEnds hs hlimit howner hturns (by omega)
  exact ⟨k, t, by omega, hrun, by rwa [hbus, List.drop_left], hends⟩

/-! ### The turns of other agents -/

/-- Rule R212: an effect leaves the turns that are left. -/
theorem Effect.turns_eq {turn : Turn} (h : Effect s turn t) : t.turns = s.turns := by
  cases h with
  | doneSingle _ _ _ _ _ hc | doneLast _ _ _ _ _ hc | doneNext _ _ _ _ _ _ hc =>
    obtain ⟨_, _, _, _, rfl⟩ := hc.frame
    rfl
  | _ => rfl

/-- The effect of a step with a turn left. -/
theorem effect_of_step {turn : Turn} {rest : List Turn} (hturns : s.turns = turn :: rest) (h : step s = .next t) :
    Effect { s with turns := rest } turn t :=
  effect_of_moves (takeTurn_moves ((step_turn hturns).symm.trans h))

/-- What a turn of an agent other than `Seq` leaves alone (rules R168, R184 and R212). -/
structure OtherAgentFrame (turn : Turn) (s t : State) : Prop where
  seq : t.seq = s.seq
  batch : t.batch = s.batch
  bus : t.bus = s.bus
  timeoutSeen : t.timeoutSeen = s.timeoutSeen
  cfg : t.cfg = s.cfg
  busAnswer : t.busAnswer = s.busAnswer
  bridge : turn ≠ .bridge → t.bridge = s.bridge

/-- No effect of another agent but reset touches the sequencer, the batch, the bus order or the timeout flag. -/
theorem Effect.otherAgentFrame {turn : Turn} (h : Effect s turn t) (hreset : turn.isReset = false)
    (hseq : turn.isSeq = false) : OtherAgentFrame turn s t := by
  cases h with
  | hold | answer | accept | tuneWait | tuneFail | tuneGo | waitFail | waitGo | attemptOk | attemptLast
  | attemptNext => exact ⟨rfl, rfl, rfl, rfl, rfl, rfl, fun _ => rfl⟩
  | bridge => exact ⟨rfl, rfl, rfl, rfl, rfl, rfl, fun h => absurd rfl h⟩
  | reset => simp [Turn.isReset] at hreset
  | grantSingle | grantMany | grantEmpty | grantReg | wrMosi | wrCtrl | pollAgain | timeoutSingle | timeoutMany
  | readDone | doneSingle | doneLast | doneNext => simp [Turn.isSeq] at hseq

/-- The bridge's turn frees its slot, but in POLL (rules R29, R235 and R242). -/
theorem bridgeTurn_eq (s : State) :
    bridgeTurn s =
      .next { s with bridge := { s.bridge with slot := if s.seq.st = .poll then s.bridge.slot else .idle } } := by
  unfold bridgeTurn freeSlot
  split <;> rfl

/-- With no command in `seq.cmd` a turn of `Seq` in a transaction faults (rule R50). -/
theorem step_seq_of_no_command {pick : ClientId} {draw : Word} {rest : List Turn}
    (hturns : s.turns = .seq pick draw :: rest) (hst : s.seq.st ≠ .idle) (hcmd : s.seq.cmd = none) :
    step s = .fault .seqCmdUnwritten := by
  simp [step_turn hturns, takeTurn, seqTurn, hst, seqAccess, hcmd]

theorem Turn.exists_eq_seq {turn : Turn} (h : turn.isSeq = true) : ∃ pick draw, turn = .seq pick draw := by
  cases turn with
  | seq pick draw => exact ⟨pick, draw, rfl⟩
  | client | tuner | rflib | bridge | reset => cases h

/-! ### A transaction between the turns of other agents -/

/-- Two states agree on all that a transaction reads and writes but the bridge, and what `a` has delivered since
`base` stands in the same order in what `s` has delivered since. -/
structure Agrees (base : List Delivery) (s a : State) : Prop where
  cfg : a.cfg = s.cfg
  seq : a.seq = s.seq
  batch : a.batch = s.batch
  bus : a.bus = s.bus
  timeoutSeen : a.timeoutSeen = s.timeoutSeen
  busAnswer : a.busAnswer = s.busAnswer
  results : ∃ l m, a.results = base ++ l ∧ s.results = base ++ m ∧ l.Sublist m

section
variable {base : List Delivery}

/-- The two outcomes are agreeing next states, or the same fault. -/
inductive OutAgrees (base : List Delivery) : Out → Out → Prop
  | next {s a : State} (h : Agrees base s a) : OutAgrees base (.next s) (.next a)
  | fault (f : Fault) : OutAgrees base (.fault f) (.fault f)

theorem Agrees.withSeq (h : Agrees base s a) {q r : Seq} (e : r = q) :
    Agrees base { s with seq := q } { a with seq := r } := { h with seq := e }

theorem Agrees.regWrite (h : Agrees base s a) (r : RegId) (v : Word) :
    Agrees base (regWrite r v s) (regWrite r v a) := { h with bus := by simp [h.bus, h.seq] }

theorem Agrees.regRead (h : Agrees base s a) (r : RegId) : Agrees base (regRead r s) (regRead r a) :=
  { h with bus := by simp [h.bus, h.seq, h.busAnswer] }

theorem Agrees.pollRead (h : Agrees base s a) : Agrees base (pollRead s) (pollRead a) :=
  (h.regRead .spiStatus).withSeq (by simp [h.seq])

theorem Agrees.setTimeoutSeen (h : Agrees base s a) : Agrees base (setTimeoutSeen s) (setTimeoutSeen a) :=
  { h with timeoutSeen := rfl }

theorem Agrees.endTransaction (h : Agrees base s a) : Agrees base (endTransaction s) (endTransaction a) :=
  h.withSeq (by rw [h.seq])

theorem Agrees.release (h : Agrees base s a) : Agrees base (release s) (release a) := h.withSeq (by rw [h.seq])

theorem Agrees.start (h : Agrees base s a) (cmd : Command) : Agrees base (start cmd s) (start cmd a) :=
  h.withSeq (by rw [h.seq])

theorem Agrees.collect (h : Agrees base s a) (r : Response) : Agrees base (collect r s) (collect r a) :=
  { h with batch := by simp [h.batch] }

theorem Agrees.deliver (h : Agrees base s a) (c : ClientId) (r : Result) :
    Agrees base (deliver c r s) (deliver c r a) := by
  obtain ⟨l, m, ha, hs, hsub⟩ := h.results
  exact { h with results := ⟨l ++ [⟨c, r⟩], m ++ [⟨c, r⟩], by simp [ha], by simp [hs], hsub.append_right _⟩ }

theorem Agrees.complete (h : Agrees base s a) (r : Response) : OutAgrees base (complete r s) (complete r a) := by
  unfold Machine.complete
  rw [h.seq]
  split
  · exact .fault _
  · exact .fault _
  · exact .fault _
  · exact .next (h.endTransaction.deliver _ _).release
  · have hc := h.endTransaction.collect r
    unfold batchNext batchGoOn
    rw [hc.batch]
    split
    · exact .next (hc.deliver _ _).release
    · split
      · exact .next (hc.start _)
      · exact .fault _

theorem Agrees.fail (h : Agrees base s a) (e : ErrCode) : OutAgrees base (fail e s) (fail e a) := by
  unfold Machine.fail
  rw [h.seq]
  split
  · exact .fault _
  · exact .fault _
  · exact .fault _
  · exact .next (h.endTransaction.deliver _ _).release
  · unfold batchAbort
    rw [h.endTransaction.batch]
    exact .next (h.endTransaction.deliver _ _).release

theorem Agrees.pollNotDone (h : Agrees base s a) : OutAgrees base (pollNotDone s) (pollNotDone a) := by
  unfold Machine.pollNotDone
  rw [h.cfg, h.seq]
  split
  · exact h.setTimeoutSeen.fail _
  · exact .next h

theorem Agrees.stepWrMosi (h : Agrees base s a) (cmd : Command) :
    OutAgrees base (stepWrMosi cmd s) (stepWrMosi cmd a) :=
  .next ((h.regWrite _ _).withSeq (by rw [(h.regWrite _ _).seq]))

theorem Agrees.stepWrCtrl (h : Agrees base s a) : OutAgrees base (stepWrCtrl s) (stepWrCtrl a) := by
  unfold Machine.stepWrCtrl
  rw [h.cfg]
  exact .next ((h.regWrite _ _).withSeq (by rw [(h.regWrite _ _).seq]))

/-- A register access of a transaction does the same in agreeing states (rules R133 to R138). -/
theorem Agrees.exec_ofCommand (h : Agrees base s a) (cmd : Command) :
    OutAgrees base (exec (Instr.ofCommand cmd) s) (exec (Instr.ofCommand cmd) a) := by
  cases cmd with
  | write addr value =>
    simp only [Instr.ofCommand, exec, execSpiWrite]
    rw [h.seq, h.cfg, h.busAnswer]
    split
    · exact .fault _
    · exact h.stepWrMosi _
    · exact h.stepWrCtrl
    · split
      · exact h.pollRead.complete _
      · exact h.pollRead.pollNotDone
    · exact .fault _
  | read addr =>
    simp only [Instr.ofCommand, exec, execSpiRead, stepRdMiso]
    rw [h.seq, h.cfg, h.busAnswer]
    split
    · exact .fault _
    · exact h.stepWrMosi _
    · exact h.stepWrCtrl
    · split
      · exact .next (h.pollRead.withSeq (by rw [h.pollRead.seq]))
      · exact h.pollRead.pollNotDone
    · exact (h.regRead _).complete _

/-- Agreeing states agree when each takes a turn with the same draw. -/
theorem Agrees.turn_taken (h : Agrees base s a) (rest rest' : List Turn) (draw : Word) :
    Agrees base { s with turns := rest, busAnswer := draw } { a with turns := rest', busAnswer := draw } :=
  ⟨h.cfg, h.seq, h.batch, h.bus, h.timeoutSeen, rfl, h.results⟩

/-- A turn of `Seq` in a transaction does the same in agreeing states, whatever other turns are left. -/
theorem Agrees.step_seq (h : Agrees base s a) {pick : ClientId} {draw : Word} {rest rest' : List Turn}
    (hst : a.seq.st ≠ .idle) (hturns : s.turns = .seq pick draw :: rest)
    (hturns' : a.turns = .seq pick draw :: rest') : OutAgrees base (step s) (step a) := by
  have hs : s.seq.st ≠ .idle := h.seq ▸ hst
  cases hcmd : s.seq.cmd with
  | none =>
    rw [step_seq_of_no_command hturns hs hcmd, step_seq_of_no_command hturns' hst (h.seq ▸ hcmd)]
    exact .fault _
  | some cmd =>
    rw [Machine.step_seq hturns hs hcmd, Machine.step_seq hturns' hst (h.seq ▸ hcmd)]
    exact (h.turn_taken rest rest' draw).exec_ofCommand cmd

/-- A step of another agent but reset may deliver a result, and keeps the agreement. -/
theorem Agrees.step_other (h : Agrees base s a) {turn : Turn} {rest : List Turn} (hturns : s.turns = turn :: rest)
    (hreset : turn.isReset = false) (hseq : turn.isSeq = false) (hstep : step s = .next t) : Agrees base t a := by
  have hf := (effect_of_step hturns hstep).otherAgentFrame hreset hseq
  obtain ⟨-, -, ⟨new, hnew⟩, -⟩ := parametersNeverChange s t hstep
  obtain ⟨l, m, ha, hs, hsub⟩ := h.results
  exact ⟨h.cfg.trans hf.cfg.symm, h.seq.trans hf.seq.symm, h.batch.trans hf.batch.symm, h.bus.trans hf.bus.symm,
    h.timeoutSeen.trans hf.timeoutSeen.symm, h.busAnswer.trans hf.busAnswer.symm,
    l, m ++ new, ha, by simp [← hnew, hs], hsub.trans (List.sublist_append_left m new)⟩

end

/-- The first step of a run that answers, and the run from there. -/
theorem exists_step_of_run_succ {k : Nat} (h : Host.Core.run Sys2Proof.core (k + 1) s = .next t) :
    ∃ u, step s = .next u ∧ Host.Core.run Sys2Proof.core k u = .next t := by
  simp only [Host.Core.run] at h
  split at h
  · exact ⟨_, ‹_›, h⟩
  · cases h
  · cases h

/-- Under every interleaving without reset, the turns of `Seq` up to the end of the request in progress keep the
agreement with a run of those turns alone, by induction on the turns. -/
theorem Agrees.run {base : List Delivery} {turns rest : List Turn} (h : Agrees base s a)
    (hturns : s.turns = turns ++ rest) (hreset : ∀ x ∈ turns, x.isReset = false)
    (halone : a.turns = turns.filter Turn.isSeq)
    (hbusy : ∀ k v, k < (turns.filter Turn.isSeq).length → Host.Core.run Sys2Proof.core k a = .next v →
      v.seq.st ≠ .idle)
    (hs : Host.Core.run Sys2Proof.core turns.length s = .next t)
    (ha : Host.Core.run Sys2Proof.core (turns.filter Turn.isSeq).length a = .next u) : Agrees base t u := by
  induction turns generalizing s a with
  | nil => cases hs; cases ha; exact h
  | cons turn turns ih =>
    obtain ⟨s', hstep, hs'⟩ := exists_step_of_run_succ hs
    have hrest : ∀ x ∈ turns, x.isReset = false := fun x hx => hreset x (by simp [hx])
    have htaken : s'.turns = turns ++ rest := (effect_of_step hturns hstep).turns_eq
    cases hseq : turn.isSeq with
    | false =>
      simp only [List.filter_cons, hseq] at halone hbusy ha
      exact ih (h.step_other hturns (hreset turn (by simp)) hseq hstep) htaken hrest halone hbusy hs' ha
    | true =>
      simp only [List.filter_cons, hseq, if_true, List.length_cons] at halone hbusy ha
      obtain ⟨a', hstep', ha'⟩ := exists_step_of_run_succ ha
      obtain ⟨pick, draw, rfl⟩ := Turn.exists_eq_seq hseq
      have hsame := h.step_seq (hbusy 0 a (Nat.succ_pos _) rfl) hturns halone
      rw [hstep, hstep'] at hsame
      cases hsame with
      | next h' =>
        exact ih h' htaken hrest (effect_of_step halone hstep').turns_eq
          (fun k v hk hv => hbusy (k + 1) v (Nat.succ_lt_succ hk) ((run_succ hstep').trans hv)) hs' ha'

/-- Settles O60: the frame of each other agent's turn, and the agreement of an interleaving with its turns of `Seq`. -/
theorem otherAgentsLeaveATransactionAlone : Obligations.OtherAgentsLeaveATransactionAlone := by
  refine ⟨fun s t turn rest hturns hreset hseq hstep => ?_, fun s t u turns rest hturns hreset => ?_⟩
  · have heffect := effect_of_step hturns hstep
    have hf := heffect.otherAgentFrame hreset hseq
    refine ⟨hf.seq, hf.batch, hf.bus, hf.timeoutSeen, hf.cfg, heffect.turns_eq, hf.bridge, ?_⟩
    rintro rfl
    have hbridge := (step_turn hturns).symm.trans hstep
    rw [takeTurn, bridgeTurn_eq] at hbridge
    cases hbridge
    rfl
  · intro alone hbusy hs ha
    have hstart : Agrees s.results s alone := ⟨rfl, rfl, rfl, rfl, rfl, rfl, [], [], by simp [alone], by simp, .slnil⟩
    have h := hstart.run hturns hreset rfl hbusy hs ha
    obtain ⟨l, m, hl, hm, hsub⟩ := h.results
    exact ⟨h.seq.symm, h.batch.symm, h.bus.symm, h.timeoutSeen.symm, l, hl, by rwa [hm, List.drop_left]⟩

end Sys2Proof.Machine

/-! Proofs of the family of `30_encoding.md`: command words by place value and their round trips (rules R81 to R88), the
request descriptors and the opcode table (rules R82 and R95 to R97), responses as words (rule R98), the assembler (rules
R101 to R103), and what the reserved op codes and two accesses of a transaction do (rules R96, R136 and R137). -/

namespace Sys2Proof

/-! ### Command words by place value -/

/-- Rule R86: a Write's word is a bit 1, its address and its value, side by side. -/
theorem pack_write_eq_append (a : ChipAddr) (v : Half) : pack (.write a v) = 1#1 ++ a ++ v := by
  apply BitVec.eq_of_getLsbD_eq
  intro i hi
  rw [getLsbD_pack_write, BitVec.getLsbD_append, BitVec.getLsbD_append]
  by_cases hvalue : i < 16
  · simp only [hvalue, if_true]
  · by_cases haddr : i < 31
    · simp only [hvalue, haddr, if_false, if_true, show i - 16 < 15 by omega]
    · obtain rfl : i = 31 := by omega
      rfl

theorem toNat_pack_write (a : ChipAddr) (v : Half) :
    (pack (.write a v)).toNat = 2 ^ 31 + a.toNat * 2 ^ 16 + v.toNat := by
  rw [pack_write_eq_append, BitVec.toNat_append, BitVec.toNat_append, ← Nat.shiftLeft_add_eq_or_of_lt a.isLt,
    ← Nat.shiftLeft_add_eq_or_of_lt v.isLt]
  simp only [Nat.shiftLeft_eq, BitVec.toNat_ofNat]
  omega

theorem toNat_pack_read (a : ChipAddr) : (pack (.read a)).toNat = a.toNat * 2 ^ 16 := by
  have ha := a.isLt
  simp only [pack, BitVec.toNat_shiftLeft, BitVec.toNat_setWidth, Nat.shiftLeft_eq]
  omega

/-- Rule R82: a command word is a Write's exactly when it is at least 2^31. -/
theorem getLsbD_31_iff (w : Word) : w.getLsbD 31 = true ↔ 2 ^ 31 ≤ w.toNat :=
  (Bool.eq_iff_iff.mp w.getLsbD_last).trans decide_eq_true_iff

/-- The bits of a word from `start` on, by place value. -/
theorem extractLsb'_eq_ofNat (w : Word) (start len : Nat) :
    w.extractLsb' start len = BitVec.ofNat len (w.toNat / 2 ^ start) := by
  rw [BitVec.extractLsb', Nat.shiftRight_eq_div_pow]

/-- Settles O2, with the fields of a word read as quotients and remainders. -/
theorem packAndUnpackByPlaceValue : Obligations.PackAndUnpackByPlaceValue := by
  refine ⟨toNat_pack_write, toNat_pack_read, fun w => ?_⟩
  simp only [unpack, getLsbD_31_iff, extractLsb'_eq_ofNat, pow_zero, Nat.div_one]

/-! ### The round trips of command words -/

/-- The mask of rule R88 clears the low half of a word. -/
theorem and_highHalf (w : Word) : w &&& (0xFFFF0000 : Word) = w >>> 16 <<< 16 := by
  have hmask : ∀ i < 32, (0xFFFF0000 : Word).getLsbD i = decide (16 ≤ i) := by decide
  apply BitVec.eq_of_getLsbD_eq
  intro i hi
  rw [BitVec.getLsbD_and, hmask i hi, BitVec.getLsbD_shiftLeft, BitVec.getLsbD_ushiftRight]
  by_cases hhigh : 16 ≤ i
  · simp [hi, hhigh, Nat.add_sub_cancel' hhigh]
  · simp [hhigh]

theorem toNat_and_highHalf (w : Word) : (w &&& 0xFFFF0000).toNat = w.toNat / 2 ^ 16 * 2 ^ 16 := by
  have hw := w.isLt
  rw [and_highHalf, BitVec.toNat_shiftLeft, BitVec.toNat_ushiftRight, Nat.shiftRight_eq_div_pow, Nat.shiftLeft_eq]
  omega

/-- Rule R88: packing an unpacked word clears the low half of a Read's word, and changes nothing else. -/
theorem pack_unpack (w : Word) : pack (unpack w) = if w.getLsbD 31 then w else w &&& 0xFFFF0000 := by
  have hw := w.isLt
  apply BitVec.eq_of_toNat_eq
  simp only [unpack, getLsbD_31_iff]
  split
  · rw [toNat_pack_write, BitVec.extractLsb'_toNat, BitVec.extractLsb'_toNat, Nat.shiftRight_eq_div_pow]
    simp only [Nat.shiftRight_zero]
    omega
  · rw [toNat_pack_read, BitVec.extractLsb'_toNat, Nat.shiftRight_eq_div_pow, toNat_and_highHalf]
    omega

/-- The mask of rule R88 changes a word exactly when its low half is not 0. -/
theorem and_highHalf_eq_self_iff (w : Word) : w &&& 0xFFFF0000 = w ↔ w.extractLsb' 0 16 = 0 := by
  rw [← BitVec.toNat_inj, ← BitVec.toNat_inj, toNat_and_highHalf, BitVec.extractLsb'_toNat, Nat.shiftRight_zero]
  change _ ↔ _ = 0
  omega

theorem pack_unpack_eq_self_iff (w : Word) :
    pack (unpack w) = w ↔ (w.getLsbD 31 = true ∨ w.extractLsb' 0 16 = 0) := by
  rw [pack_unpack]
  split
  · exact iff_of_true rfl (.inl ‹_›)
  · rw [and_highHalf_eq_self_iff, or_iff_right ‹_›]

namespace Machine

/-- Rule R111: operands that fit are packed in the result. -/
theorem exec_encodeWrite_of_fits {addr value : Word} (s : State) (ha : addr.toNat ≤ 32767)
    (hv : value.toNat ≤ 65535) :
    exec (.encodeWrite addr value) s =
      .next (deliver s.portClient (okResult (.word (pack (.write (addrField addr) (valueField value))))) s) := by
  have hinfo : violationInfo (!addrFits addr) (!valueFits value) = 0 := by
    rw [(addrFits_iff addr).mpr ha, (valueFits_iff value).mpr hv]
    rfl
  simp [exec, execEncodeWrite, hinfo]

theorem addrField_eq_setWidth (addr : Word) : addrField addr = addr.setWidth 15 :=
  (BitVec.setWidth_eq_extractLsb' (by decide)).symm

theorem valueField_eq_setWidth (value : Word) : valueField value = value.setWidth 16 :=
  (BitVec.setWidth_eq_extractLsb' (by decide)).symm

/-- Settles O3: the result of ENCODE_WRITE is a packed Write, which unpacks to the fields of the operands. -/
theorem commandRoundTripLaws : Obligations.CommandRoundTripLaws := by
  refine ⟨unpack_pack, pack_unpack_eq_self_iff, fun w h => ?_, fun addr value s ha hv => ?_⟩
  · rw [pack_unpack, if_neg fun htag => h (.inl htag)]
  · refine ⟨_, exec_encodeWrite_of_fits s ha hv, ?_⟩
    rw [← addrField_eq_setWidth, ← valueField_eq_setWidth, exec, execDecode, unpack_pack]
    rfl

end Machine

/-! ### The encodings of instructions -/

/-- Rule R211: a reserved op code is reserved whatever operands stand beside it. -/
theorem decodeRequest_of_reserved {d : Descriptor} (h : opReserved d.op = true) :
    decodeRequest d = .ok (.reserved d.op) := if_pos h

/-- Settles O4: a packed command unpacks, a reserved op code is looked at alone, and the other op codes are found in the
table of rule R97 with the operands they take. -/
theorem decodeOfEncodeIsTheInstruction : Obligations.DecodeOfEncodeIsTheInstruction := by
  intro b i hi
  cases i with
  | spiWrite addr value => exact decode_cmd32_pack (.write addr value)
  | spiRead addr => exact decode_cmd32_pack (.read addr)
  | encodeWrite | encodeRead | decode | transact | transactMany | tuneCgen | regRead32 | clksel =>
    exact if_neg (by simp [opReserved])
  | reserved op => exact decodeRequest_of_reserved hi

/-- An op code that is not reserved is decoded with its operands, and encoding gives both back. -/
theorem encode_of_decodeRequest {d : Descriptor} {i : Instr} (hop : opReserved d.op = false)
    (h : decodeRequest d = .ok i) : encode i = .req d := by
  obtain ⟨op, operands⟩ := d
  rw [decodeRequest, hop] at h
  simp only [Bool.false_eq_true, if_false] at h
  split at h
  case h_9 => cases h
  all_goals
    rename_i hcode
    cases h
    exact congrArg (fun op => Encoding.req ⟨op, _⟩) (BitVec.eq_of_toNat_eq hcode.symm)

theorem encode_ofCommand (cmd : Command) : encode (Instr.ofCommand cmd) = .cmd32 (pack cmd) := by
  cases cmd <;> rfl

/-- Settles O5: on a descriptor by whether its op code is reserved, on a word by packing what it unpacks to. -/
theorem encodeOfDecodeIsCanonical : Obligations.EncodeOfDecodeIsCanonical := by
  refine ⟨fun d i h => ?_, fun w i h => ?_⟩
  · cases hop : opReserved d.op with
    | true =>
      rw [decode, decodeRequest_of_reserved hop] at h
      cases h
      rw [if_pos ((opReserved_iff _).mp hop)]
      rfl
    | false =>
      rw [if_neg fun h8 => by simp [(opReserved_iff _).mpr h8] at hop]
      exact encode_of_decodeRequest hop h
  · cases h
    rw [decodeCommand, encode_ofCommand, pack_unpack]

/-! ### The opcode table -/

/-- The row whose fixed bits an encoding shows (rules R82, R95 and R96). -/
def Encoding.rowIndex : Encoding → Nat
  | .cmd32 w => if w.getLsbD 31 then 0 else 1
  | .req d => if opReserved d.op then 10 else d.op.toNat + 2

/-- The mask of the CMD32 rows keeps bit 31 (rule R82). -/
theorem and_tagMask (w : Word) : w &&& 0x80000000 = if w.getLsbD 31 then 0x80000000 else 0 :=
  BitVec.and_twoPow w 31

/-- A CMD32 row looks at bit 31 alone, so the rows are compared for its two values. -/
theorem covers_cmd32_iff (w : Word) (n : Fin 11) :
    opcodeRows[n].covers (.cmd32 w) = true ↔ n = (Encoding.cmd32 w).rowIndex := by
  have hmask : ∀ n : Fin 11, opcodeRows[n].isReq = false → opcodeRows[n].mask = 0x80000000 := by decide
  have hcovers : opcodeRows[n].covers (.cmd32 w) =
      (!opcodeRows[n].isReq && (if w.getLsbD 31 then 0x80000000 else 0) == opcodeRows[n].pattern) := by
    cases hreq : opcodeRows[n].isReq with
    | true => simp only [OpcodeRow.covers, hreq, Bool.not_true, Bool.false_and]
    | false => rw [OpcodeRow.covers, hreq, hmask n hreq, and_tagMask]
  rw [hcovers, Encoding.rowIndex]
  clear hcovers
  generalize w.getLsbD 31 = tag
  revert tag n
  decide

/-- A REQ row looks at the op code alone, so the rows are compared for its sixteen values. -/
theorem covers_req_iff (d : Descriptor) (n : Fin 11) :
    opcodeRows[n].covers (.req d) = true ↔ n = (Encoding.req d).rowIndex := by
  obtain ⟨op, operands⟩ := d
  simp only [OpcodeRow.covers, Encoding.rowIndex]
  revert op n
  decide

/-- Every encoding shows the fixed bits of exactly one row of the table. -/
theorem covers_iff_rowIndex {n : Nat} {r : OpcodeRow} (h : opcodeRows[n]? = some r) (e : Encoding) :
    r.covers e = true ↔ n = e.rowIndex := by
  obtain ⟨hn, rfl⟩ := List.getElem?_eq_some_iff.mp h
  cases e with
  | cmd32 w => exact covers_cmd32_iff w ⟨n, hn⟩
  | req d => exact covers_req_iff d ⟨n, hn⟩

/-- Settles O6: every encoding shows one row, and that of an encoded instruction is the instruction's own. -/
theorem encodingShowsExactlyItsOwnRow : Obligations.EncodingShowsExactlyItsOwnRow := by
  intro b i hi n r hr
  suffices hrow : (encode i).rowIndex = i.rowIndex by rw [covers_iff_rowIndex hr, hrow]
  cases i with
  | spiWrite addr value => exact if_pos (by rw [getLsbD_pack_write]; rfl)
  | spiRead addr => exact if_neg (by rw [getLsbD_pack_read, BitVec.getLsbD_of_ge _ _ (by decide)]; decide)
  | encodeWrite | encodeRead | decode | transact | transactMany | tuneCgen | regRead32 | clksel =>
    exact if_neg (by simp [opReserved])
  | reserved op => exact if_pos hi

/-- Settles O1: each encoding is closed, and its decoding is computed. -/
theorem writtenOutEncodingsDecode : Obligations.WrittenOutEncodingsDecode := by
  and_intros <;> decide

namespace Machine

/-! ### Responses as words -/

theorem toNat_responseWord_value (v : Half) : (responseWord (.value v)).toNat = v.toNat :=
  BitVec.toNat_setWidth_of_le (by decide)

theorem toNat_responseWord_noPayload : (responseWord .noPayload).toNat = 2 ^ 31 := rfl

/-- Rule R98: `NoPayload` crosses as a word that no 16-bit value crosses as. -/
theorem responseWord_value_ne_noPayload (v : Half) : responseWord (.value v) ≠ responseWord .noPayload := by
  intro h
  have hv := v.isLt
  have hnat := congrArg BitVec.toNat h
  rw [toNat_responseWord_value, toNat_responseWord_noPayload] at hnat
  omega

/-- Settles O7: values are told apart by their numbers, and all of them lie below the word of `NoPayload`. -/
theorem responseWordsAreDistinct : Obligations.ResponseWordsAreDistinct := by
  refine ⟨fun r r' h => ?_, toNat_responseWord_value, toNat_responseWord_noPayload⟩
  match r, r' with
  | .value v, .value v' =>
    have hnat := congrArg BitVec.toNat h
    rw [toNat_responseWord_value, toNat_responseWord_value] at hnat
    rw [BitVec.eq_of_toNat_eq hnat]
  | .value v, .noPayload => exact absurd h (responseWord_value_ne_noPayload v)
  | .noPayload, .value v => exact absurd h.symm (responseWord_value_ne_noPayload v)
  | .noPayload, .noPayload => rfl

/-! ### The assembler -/

theorem assemble_wr_eq_none_iff (a v : Nat) : (AsmCmd.wr a v).assemble = none ↔ (0x7FFF < a ∨ 0xFFFF < v) := by
  simp only [AsmCmd.assemble, ite_eq_right_iff, reduceCtorEq, imp_false]
  omega

theorem assemble_rd_eq_none_iff (a : Nat) : (AsmCmd.rd a).assemble = none ↔ 0x7FFF < a := by
  simp [AsmCmd.assemble]

theorem toNat_of_assemble_wr {a v : Nat} {w : Word} (h : (AsmCmd.wr a v).assemble = some w) :
    w.toNat = 2 ^ 31 + a * 2 ^ 16 + v := by
  rw [AsmCmd.assemble, Option.ite_none_right_eq_some] at h
  obtain ⟨⟨ha, hv⟩, hw⟩ := h
  cases hw
  rw [toNat_pack_write, BitVec.toNat_ofNat, BitVec.toNat_ofNat, Nat.mod_eq_of_lt (by omega),
    Nat.mod_eq_of_lt (by omega)]

theorem toNat_of_assemble_rd {a : Nat} {w : Word} (h : (AsmCmd.rd a).assemble = some w) : w.toNat = a * 2 ^ 16 := by
  rw [AsmCmd.assemble, Option.ite_none_right_eq_some] at h
  obtain ⟨ha, hw⟩ := h
  cases hw
  rw [toNat_pack_read, BitVec.toNat_ofNat, Nat.mod_eq_of_lt (by omega)]

/-- Settles O58: the range check and, for a command in range, its packed word by place value. -/
theorem assemblerRefusesOutOfRange : Obligations.AssemblerRefusesOutOfRange :=
  ⟨assemble_wr_eq_none_iff, assemble_rd_eq_none_iff, fun _ _ _ => toNat_of_assemble_wr,
    fun _ _ => toNat_of_assemble_rd, fun _ => rfl⟩

/-- Settles O59: each pseudo-instruction is expanded, and the request of its expansion is computed. -/
theorem pseudoInstructionExpansions : Obligations.PseudoInstructionExpansions :=
  ⟨fun _ _ => rfl, fun _ => rfl, rfl, fun _ _ => rfl⟩

/-! ### Single steps -/

/-- Rules R96 and R206: the info word is the op code. -/
theorem exec_reserved (op : BitVec 4) (s : State) :
    exec (.reserved op) s =
      .next { s with results := s.results ++
        [⟨s.portClient, ⟨.illegalRequest, BitVec.ofNat 32 op.toNat, .none⟩⟩] } := by
  rw [BitVec.ofNat_toNat]
  rfl

/-- Settles O12: at the port the descriptor decodes to the reserved op code, whose meaning is the answer. -/
theorem reservedOpIsIllegalRequest : Obligations.ReservedOpIsIllegalRequest := by
  refine ⟨exec_reserved, fun s c d pre post rest hturns hport hpre hc hfree hop => ?_⟩
  have hdecode := decodeRequest_of_reserved ((opReserved_iff d.op).mpr hop)
  rw [clientTurnRunsTheDecodedRequest s c d _ pre post rest hturns hc hfree hport hpre hdecode, exec_reserved]

variable {s : State}

/-- A STATUS read that shows not-done counts and leaves the slot as it is (rules R29 and R135). -/
theorem pollRead_of_not_done (h : s.busAnswer &&& s.cfg.statusDoneMask = 0) :
    pollRead s = { s with seq := { s.seq with polls := s.seq.polls + 1 },
                          bridge := { s.bridge with status := s.busAnswer },
                          bus := s.bus ++ [⟨s.seq.owner, .read, .spiStatus, s.busAnswer⟩] } := by
  simp [pollRead, regRead, Bridge.onRead, statusDone, h]

/-- Settles O21: either command's access is the STATUS read alone. -/
theorem pollAgainBelowTheLimit : Obligations.PollAgainBelowTheLimit := by
  intro cmd s hst hdone hlimit
  rw [exec_ofCommand_of_not_done hst hdone hlimit, pollRead_of_not_done hdone]

/-- Settles O26: the read of SPI_MISO and then the end of the transaction. -/
theorem misoCompletesSpiRead : Obligations.MisoCompletesSpiRead := by
  intro a s c hst hmode howner
  have hexec : exec (.spiRead a) s = complete (readResponse s.busAnswer) (regRead .spiMiso s) := by
    simp [exec, execSpiRead, hst, stepRdMiso]
  rw [hexec, complete_single (s := regRead .spiMiso s) hmode howner]
  simp [regRead, Bridge.onRead, readResponse, extractLsb'_eq_ofNat, howner]

end Machine

end Sys2Proof

/-! Proofs of the family of `40_command_codec.md`: the results of ENCODE_WRITE, ENCODE_READ and DECODE (rules R111 to
R113), their independence of the state (rule R117), and the word that step WR_MOSI writes (rules R133 and R147). -/

namespace Sys2Proof.Machine

/-! ### The operands as fields of a command -/

/-- Rule R116: no bit of an `addr` operand that fits is lost. -/
theorem toNat_addrField_of_fits {addr : Word} (h : addr.toNat ≤ 0x7FFF) : (addrField addr).toNat = addr.toNat := by
  rw [addrField_eq_setWidth, BitVec.toNat_setWidth, Nat.mod_eq_of_lt (by omega)]

/-- Rule R116: no bit of a `value` operand that fits is lost. -/
theorem toNat_valueField_of_fits {value : Word} (h : value.toNat ≤ 0xFFFF) :
    (valueField value).toNat = value.toNat := by
  rw [valueField_eq_setWidth, BitVec.toNat_setWidth, Nat.mod_eq_of_lt (by omega)]

/-- Rule R111: the word ENCODE_WRITE answers, by the place values of its operands. -/
theorem pack_write_of_fits {addr value : Word} (ha : addr.toNat ≤ 0x7FFF) (hv : value.toNat ≤ 0xFFFF) :
    pack (.write (addrField addr) (valueField value)) =
      BitVec.ofNat 32 (2 ^ 31 + addr.toNat * 2 ^ 16 + value.toNat) := by
  rw [← toNat_addrField_of_fits ha, ← toNat_valueField_of_fits hv, ← toNat_pack_write, BitVec.ofNat_toNat,
    BitVec.setWidth_eq]

/-- Rule R112: the word ENCODE_READ answers, by the place value of its operand. -/
theorem pack_read_of_fits {addr : Word} (h : addr.toNat ≤ 0x7FFF) :
    pack (.read (addrField addr)) = BitVec.ofNat 32 (addr.toNat * 2 ^ 16) := by
  rw [← toNat_addrField_of_fits h, ← toNat_pack_read, BitVec.ofNat_toNat, BitVec.setWidth_eq]

theorem not_addrFits_iff (addr : Word) : (!addrFits addr) = true ↔ 0x7FFF < addr.toNat := by
  rw [Bool.not_eq_true', ← Bool.not_eq_true, addrFits_iff, not_le]

theorem not_valueFits_iff (value : Word) : (!valueFits value) = true ↔ 0xFFFF < value.toNat := by
  rw [Bool.not_eq_true', ← Bool.not_eq_true, valueFits_iff, not_le]

/-- Rule R111: bit 0 of the info word is the address and bit 1 the value. -/
theorem violationInfo_eq_ofNat (addrBad valueBad : Bool) :
    violationInfo addrBad valueBad =
      BitVec.ofNat 32 ((if addrBad = true then 1 else 0) + (if valueBad = true then 2 else 0)) := by
  revert addrBad valueBad
  decide

/-- Rule R111: the info word is 0 exactly when neither operand is at fault. -/
theorem violationInfo_ne_zero_iff (addrBad valueBad : Bool) :
    violationInfo addrBad valueBad ≠ 0 ↔ addrBad = true ∨ valueBad = true := by
  revert addrBad valueBad
  decide

/-! ### The requests answered in the step they are presented, whose descriptors are the encoder's (rules R95 and R97) -/

/-- Rule R111: an operand that does not fit makes the request an ENCODING_VIOLATION. -/
theorem exec_encodeWrite_of_not_fits {addr value : Word} (s : State)
    (h : ¬(addr.toNat ≤ 0x7FFF ∧ value.toNat ≤ 0xFFFF)) :
    exec (.encodeWrite addr value) s =
      .next (raiseError s.portClient .encodingViolation (violationInfo (!addrFits addr) (!valueFits value)) s) := by
  have hinfo : violationInfo (!addrFits addr) (!valueFits value) ≠ 0 := by
    rw [violationInfo_ne_zero_iff, not_addrFits_iff, not_valueFits_iff]
    omega
  exact if_pos hinfo

/-- Settles O8: in range the packed word has the place values of the operands, and out of range the info word has a
place for each check. -/
theorem encodeWriteResult : Obligations.EncodeWriteResult := by
  refine fun addr value s => ⟨decodeOfEncodeIsTheInstruction default (.encodeWrite addr value) rfl, ?_⟩
  by_cases h : addr.toNat ≤ 0x7FFF ∧ value.toNat ≤ 0xFFFF
  · obtain ⟨ha, hv⟩ := h
    rw [exec_encodeWrite_of_fits s ha hv, pack_write_of_fits ha hv, if_pos ⟨ha, hv⟩]
    rfl
  · rw [exec_encodeWrite_of_not_fits s h, violationInfo_eq_ofNat, if_neg h]
    simp only [not_addrFits_iff, not_valueFits_iff]
    rfl

/-- Settles O9: the packed word has the place value of the operand, and the only cause of an error is the address. -/
theorem encodeReadResult : Obligations.EncodeReadResult := by
  refine fun addr s => ⟨decodeOfEncodeIsTheInstruction default (.encodeRead addr) rfl, ?_⟩
  rw [exec, execEncodeRead]
  by_cases h : addr.toNat ≤ 0x7FFF
  · rw [if_pos ((addrFits_iff addr).mpr h), pack_read_of_fits h, if_pos h]
    rfl
  · rw [if_neg (mt (addrFits_iff addr).mp h), if_neg h]
    rfl

/-- Settles O10: the fields are those of the unpacked command, read by place value. -/
theorem decodeResult : Obligations.DecodeResult := by
  refine fun word s => ⟨decodeOfEncodeIsTheInstruction default (.decode word) rfl, ?_⟩
  obtain ⟨-, -, hunpack⟩ := packAndUnpackByPlaceValue
  rw [exec, execDecode, hunpack, apply_ite commandFields]
  rfl

/-- Rule R187: a REG_READ32 of any other register than CTRL_SCRATCH is an ILLEGAL_REQUEST. -/
theorem exec_regRead32_of_ne {reg : BitVec 3} (s : State) (h : reg ≠ 4) :
    exec (.regRead32 reg) s = .next (raiseError s.portClient .illegalRequest (illegalRegInfo reg) s) :=
  if_neg (mt (regReadable_iff reg).mp h)

/-- Settles O13: the result of each request is a function of its operands alone. -/
theorem codecIsIndependentOfTheState : Obligations.CodecIsIndependentOfTheState := by
  rintro i (⟨a, v, rfl⟩ | ⟨a, rfl⟩ | ⟨w, rfl⟩ | ⟨d, rfl⟩ | ⟨op, rfl⟩ | ⟨r, rfl, hr⟩)
  · exact ⟨_, fun s => (encodeWriteResult a v s).right⟩
  · exact ⟨_, fun s => (encodeReadResult a s).right⟩
  · exact ⟨_, fun s => (decodeResult w s).right⟩
  · exact ⟨okResult (.code (clkCode d)), fun _ => rfl⟩
  · exact ⟨_, exec_reserved op⟩
  · exact ⟨⟨.illegalRequest, illegalRegInfo r, .none⟩, fun s => exec_regRead32_of_ne s hr⟩

/-! ### The first access of a transaction -/

/-- Rules R114 and R115: in WR_MOSI either command makes the write of its own packed word. -/
theorem exec_ofCommand_of_wrMosi {cmd : Command} {s : State} (hst : s.seq.st = .wrMosi) :
    exec (Instr.ofCommand cmd) s = stepWrMosi cmd s := by
  cases cmd with
  | write => simp [Instr.ofCommand, exec, execSpiWrite, hst]
  | read => simp [Instr.ofCommand, exec, execSpiRead, hst]

/-- Settles O19: either command's access is the write of step WR_MOSI. -/
theorem mosiStepWritesThePackedCommand : Obligations.MosiStepWritesThePackedCommand := by
  intro cmd s hst
  rw [exec_ofCommand_of_wrMosi hst]
  rfl

end Sys2Proof.Machine

/-! Proofs of the family of `41_transaction_sequencer.md`: the acceptance and the grant of bus requests (rules R140,
R141, R144 and R181 to R183), the ends of a transaction (rules R136, R138, R142 and R143), whole transactions and
batches (rules R139 and R145), and the single slot (rules R239 and R242). -/

namespace Sys2Proof.Machine

variable {s t u : State}

/-! ### Acceptance and grant -/

/-- Rules R97 and R182: a batch within its bound is accepted. -/
theorem exec_transactMany_of_length_le {ws : List Word} (h : ws.length ≤ s.cfg.batchMax) :
    exec (.transactMany ws) s = .next (acceptBus (.transactMany ws) s) :=
  if_pos ((fits_iff ws _).mpr h)

/-- Settles O14: each of the three is accepted, and the request accepted is the one a lookup finds. -/
theorem busRequestsWaitInArbPending : Obligations.BusRequestsWaitInArbPending := by
  intro i q s h
  have haccept : exec i s = .next (acceptBus q s) := by
    rcases h with ⟨w, rfl, rfl⟩ | ⟨ws, rfl, rfl, hlength⟩ | ⟨rfl, rfl⟩
    · rfl
    · exact exec_transactMany_of_length_le hlength
    · simp [exec, execRegRead32, regReadable_iff]
  exact ⟨_, haccept, Pending.lookup_insert_self _ _ _, fun c hc => Pending.lookup_insert_ne _ _ hc⟩

/-- A turn of a free `Seq` whose pick waits is the grant of its request (rule R181). -/
theorem step_grant {c : ClientId} {draw : Word} {rest : List Turn} {q : BusRequest}
    (hturns : s.turns = .seq c draw :: rest) (hst : s.seq.st = .idle) (howner : s.seq.owner = none)
    (hq : Pending.lookup c s.arbPending = some q) :
    step s = .next (grant c { s with turns := rest, busAnswer := draw }) := by
  simp [step_turn hturns, takeTurn, seqTurn, grantEnabled, hst, howner, has_of_lookup hq]

/-- A turn of a free `Seq` whose pick does not wait is no step (rules R181 and R222). -/
theorem step_grant_of_lookup_eq_none {c : ClientId} {draw : Word} {rest : List Turn}
    (hturns : s.turns = .seq c draw :: rest) (hst : s.seq.st = .idle)
    (hq : Pending.lookup c s.arbPending = none) : step s = .next { s with turns := rest } := by
  simp [step_turn hturns, takeTurn, seqTurn, grantEnabled, hst, Pending.has, hq]

/-- Settles O17: the grant's branch for each kind of request, and the pick that does not wait. -/
theorem grantServesThePickedRequest : Obligations.GrantServesThePickedRequest := by
  refine fun s c draw rest hturns hst howner => ⟨fun w hq => ?_, fun w ws hq => ?_, fun r hq => ?_,
    step_grant_of_lookup_eq_none hturns hst⟩
  all_goals
    rw [step_grant hturns hst howner hq]
    simp only [grant, hq]
    rfl

/-- Settles O18: the grant of a batch with no words. -/
theorem emptyBatchEndsAtItsGrant : Obligations.EmptyBatchEndsAtItsGrant := by
  intro s c draw rest hturns hst howner hq
  rw [step_grant hturns hst howner hq]
  simp only [grant, hq]
  rfl

/-! ### The ends of a transaction -/

/-- The done read of an SPI_WRITE completes it with NoPayload (rule R135). -/
theorem exec_spiWrite_of_done {a : ChipAddr} {v : Half} (hst : s.seq.st = .poll)
    (hdone : s.busAnswer &&& s.cfg.statusDoneMask ≠ 0) :
    exec (.spiWrite a v) s = complete .noPayload (pollRead s) := by
  simp [exec, execSpiWrite, hst, (statusDone_iff _ _).mpr hdone]

/-- The SPI_MISO read of an SPI_READ completes it with the low half of the word read (rules R90 and R137). -/
theorem exec_spiRead_of_rdMiso {a : ChipAddr} (hst : s.seq.st = .rdMiso) :
    exec (.spiRead a) s = complete (readResponse s.busAnswer) (regRead .spiMiso s) := by
  simp [exec, execSpiRead, hst, stepRdMiso]

/-- After the last command of a batch the responses are delivered and the grant is released (rule R142). -/
theorem complete_many_last {c : ClientId} (hmode : s.seq.mode = some .many) (howner : s.seq.owner = some c)
    (hlast : s.batch.idx + 1 = s.batch.cmds.length) (r : Response) :
    complete r s =
      .next { s with seq := { st := .idle, cmd := none, polls := s.seq.polls, owner := none, mode := none },
                     batch := { s.batch with idx := s.batch.idx + 1, resps := s.batch.resps ++ [r] },
                     results := s.results ++ [⟨c, ⟨.ok, 0, .responses (s.batch.resps ++ [r])⟩⟩] } := by
  simp [complete, hmode, howner, batchNext, batchGoOn, hlast, release, deliver, collect, endTransaction, okResult]

/-- After any other command of a batch the next one starts, with the grant held (rule R142). -/
theorem complete_many_next {c : ClientId} {next : Command} (hmode : s.seq.mode = some .many)
    (howner : s.seq.owner = some c) (hnext : s.batch.cmds[s.batch.idx + 1]? = some next) (r : Response) :
    complete r s =
      .next { s with seq := { st := .wrMosi, cmd := some next, polls := 0, owner := some c, mode := some .many },
                     batch := { s.batch with idx := s.batch.idx + 1, resps := s.batch.resps ++ [r] } } := by
  have hmore : s.batch.idx + 1 ≠ s.batch.cmds.length := (List.getElem?_eq_some_iff.mp hnext).1.ne
  simp [complete, hmode, howner, batchNext, batchGoOn, hmore, hnext, start, collect, endTransaction]

/-- Settles O27: the completing access of either command, and what follows it in a batch. -/
theorem batchGoesOnOrDelivers : Obligations.BatchGoesOnOrDelivers := by
  intro cmd s c r reg polls br hmode howner h
  have hexec : exec (Instr.ofCommand cmd) s =
      complete r { s with seq := { s.seq with polls := polls }, bridge := br,
                          bus := s.bus ++ [⟨some c, .read, reg, s.busAnswer⟩] } := by
    rcases h with ⟨a, v, rfl, hst, hdone, rfl, rfl, rfl, rfl⟩ | ⟨a, rfl, hst, rfl, rfl, rfl, rfl⟩
    · rw [Instr.ofCommand, exec_spiWrite_of_done hst hdone, pollRead_of_done hdone, howner]
    · rw [Instr.ofCommand, exec_spiRead_of_rdMiso hst, readResponse, extractLsb'_eq_ofNat, pow_zero, Nat.div_one,
        ← howner]
      rfl
  rw [hexec]
  refine ⟨fun hlast => ?_, fun next hnext => ?_⟩
  · apply complete_many_last <;> assumption
  · apply complete_many_next <;> assumption

/-- A transaction that fails ends its request with the error: of a TRANSACT with info 0, of a batch with the index of
the command in progress (rules R138 and R143). -/
theorem fail_of_held {c : ClientId} {m : SeqMode} (hm : m = .single ∨ m = .many) (hmode : s.seq.mode = some m)
    (howner : s.seq.owner = some c) (e : ErrCode) :
    fail e s =
      .next { s with seq := { st := .idle, cmd := none, polls := s.seq.polls, owner := none, mode := none },
                     results := s.results ++
                       [⟨c, ⟨e, if m = .many then BitVec.ofNat 32 s.batch.idx else 0, .none⟩⟩] } := by
  rcases hm with rfl | rfl <;>
    simp [fail, hmode, howner, batchAbort, release, raiseError, deliver, endTransaction]

/-- The not-done read that reaches the limit fails the transaction and sets the timeout flag (rules R36 and R136). -/
theorem exec_ofCommand_of_limit (cmd : Command) (hst : s.seq.st = .poll)
    (hdone : s.busAnswer &&& s.cfg.statusDoneMask = 0) (hlimit : s.cfg.pollLimit = some (s.seq.polls + 1)) :
    exec (Instr.ofCommand cmd) s = fail .transactionTimeout (setTimeoutSeen (pollRead s)) := by
  have hd : statusDone s.cfg s.busAnswer = false := by simp [statusDone, hdone]
  have hfail : pollNotDone (pollRead s) = fail .transactionTimeout (setTimeoutSeen (pollRead s)) := if_pos hlimit
  cases cmd with
  | write => simp [Instr.ofCommand, exec, execSpiWrite, hst, hd, hfail]
  | read => simp [Instr.ofCommand, exec, execSpiRead, hst, hd, hfail]

/-- The failing read ends the request with TRANSACTION_TIMEOUT (rules R138, R143 and R203). -/
theorem exec_ofCommand_of_timeout {c : ClientId} {m : SeqMode} (cmd : Command) (hm : m = .single ∨ m = .many)
    (hmode : s.seq.mode = some m) (howner : s.seq.owner = some c) (hst : s.seq.st = .poll)
    (hdone : s.busAnswer &&& s.cfg.statusDoneMask = 0) (hlimit : s.cfg.pollLimit = some (s.seq.polls + 1)) :
    exec (Instr.ofCommand cmd) s =
      .next { s with seq := { st := .idle, cmd := none, polls := s.seq.polls + 1, owner := none, mode := none },
                     timeoutSeen := true,
                     bridge := { s.bridge with status := s.busAnswer },
                     bus := s.bus ++ [⟨some c, .read, .spiStatus, s.busAnswer⟩],
                     results := s.results ++ [⟨c, ⟨.transactionTimeout,
                       if m = .many then BitVec.ofNat 32 s.batch.idx else 0, .none⟩⟩] } := by
  rw [exec_ofCommand_of_limit cmd hst hdone hlimit, fail_of_held (s := setTimeoutSeen (pollRead s)) hm hmode howner,
    pollRead_of_not_done hdone, howner]
  rfl

/-- Settles O22: the failing read in mode SINGLE. -/
theorem pollTimeoutEndsTransact : Obligations.PollTimeoutEndsTransact :=
  fun cmd _ _ hst hdone hlimit hmode howner =>
    exec_ofCommand_of_timeout cmd (.inl rfl) hmode howner hst hdone hlimit

/-- Settles O23: the failing read in mode MANY. -/
theorem pollTimeoutAbortsBatch : Obligations.PollTimeoutAbortsBatch :=
  fun cmd _ _ hst hdone hlimit hmode howner =>
    exec_ofCommand_of_timeout cmd (.inr rfl) hmode howner hst hdone hlimit

/-! ### The single slot -/

/-- A transaction that completes leaves no transfer in flight: its done read has freed the slot (rules R29 and
R240). -/
theorem Completes.slot_idle {r : Response} (h : Completes s r u) (hs : SlotInv s) : u.bridge.slot = .idle := by
  cases h with
  | write _ _ _ _ hd => simp [Bridge.onRead, hd]
  | read _ _ hst => exact hs.rdMiso_idle hst

/-- Outside POLL a step that touches neither the slot nor the timeout flag keeps the discipline. -/
theorem SingleSlot.of_not_poll (h : SingleSlot s) (hst : s.seq.st ≠ .poll) (hslot : t.bridge.slot = s.bridge.slot)
    (htimeout : t.timeoutSeen = s.timeoutSeen) : SingleSlot t := by
  intro hbusy
  rw [htimeout]
  exact .inr ((h (hslot ▸ hbusy)).resolve_left hst)

/-- A sequencer that stays where it is keeps the discipline when the slot and the timeout flag stay. -/
theorem SingleSlot.of_eq (h : SingleSlot s) (hst : t.seq.st = s.seq.st) (hslot : t.bridge.slot = s.bridge.slot)
    (htimeout : t.timeoutSeen = s.timeoutSeen) : SingleSlot t := by
  rw [SingleSlot, hst, hslot, htimeout]
  exact h

/-- Every effect but that of reset keeps a busy slot to POLL, or to a timeout seen (rules R239 and R242). -/
theorem Effect.singleSlot {turn : Turn} (h : Effect s turn t) (hreset : turn.isReset = false) (hs : SlotInv s)
    (hsingle : SingleSlot s) : SingleSlot t := by
  cases h with
  | hold | answer | accept | tuneWait | tuneFail | tuneGo | waitFail | waitGo | attemptOk | attemptLast
  | attemptNext => exact hsingle.of_eq rfl rfl rfl
  | grantSingle _ _ _ _ hst | grantMany _ _ _ _ _ hst | grantEmpty _ _ _ hst | grantReg _ _ _ _ hst
  | wrMosi _ _ _ _ hst => exact hsingle.of_not_poll (by simp [hst]) rfl rfl
  | wrCtrl => exact fun _ => .inl rfl
  | pollAgain _ _ _ _ hst => exact fun _ => .inl hst
  | timeoutSingle | timeoutMany => exact fun _ => .inr rfl
  | readDone _ _ _ _ _ hd => exact .of_idle (by simp [Bridge.onRead, hd])
  | doneSingle _ _ _ _ _ hc | doneLast _ _ _ _ _ hc | doneNext _ _ _ _ _ _ hc =>
    exact .of_idle (hc.slot_idle (hs.of_eq rfl rfl))
  | bridge => exact .of_idle rfl
  | reset => simp [Turn.isReset] at hreset

/-- Registers are written in WR_MOSI and WR_CTRL only (rules R133 and R134). -/
theorem Effect.st_of_write {turn : Turn} {a : Access} (h : Effect s turn t) (hbus : t.bus = s.bus ++ [a])
    (hwrite : a.kind = .write) : s.seq.st = .wrMosi ∨ s.seq.st = .wrCtrl := by
  cases h with
  | wrMosi _ _ _ _ hst => exact .inl hst
  | wrCtrl _ _ _ _ hst => exact .inr hst
  | hold | answer | accept | tuneWait | tuneFail | tuneGo | grantSingle | grantMany | grantEmpty | waitFail | waitGo
  | attemptOk | attemptLast | attemptNext | bridge | reset => simp at hbus
  | grantReg | pollAgain | timeoutSingle | timeoutMany | readDone =>
    obtain rfl := List.singleton_injective (List.append_cancel_left hbus)
    cases hwrite
  | doneSingle _ _ _ _ _ hc | doneLast _ _ _ _ _ hc | doneNext _ _ _ _ _ _ hc =>
    obtain ⟨_, _, _, _, rfl⟩ := hc.frame
    obtain rfl := List.singleton_injective (List.append_cancel_left hbus)
    cases hwrite

/-- Settles O50: the discipline over the effects of the turn that is taken, and the states that write. -/
theorem singleSlotIsKept : Obligations.SingleSlotIsKept := by
  intro s t hs hsingle hreset h
  rcases step_cases h with ⟨_, rfl⟩ | ⟨turn, rest, hturns, heffect⟩
  · exact ⟨hsingle, fun a hbus => by simp at hbus⟩
  · rw [resetNext_of_turns hturns] at hreset
    refine ⟨heffect.singleSlot hreset (hs.slotInv.of_eq rfl rfl) (hsingle.of_eq rfl rfl rfl),
      fun a hbus hwrite htimeout => ?_⟩
    cases hslot : s.bridge.slot with
    | idle => rfl
    | busy =>
      rcases hsingle hslot with hpoll | hseen
      · rcases heffect.st_of_write hbus hwrite with hst | hst <;> cases hpoll.symm.trans hst
      · cases htimeout.symm.trans hseen

/-! ### The accesses of a transaction, run by the turns of `Seq` -/

/-- A run of one step is the step. -/
theorem run_one (s : State) : Host.Core.run Sys2Proof.core 1 s = step s := by
  simp only [Host.Core.run]
  rw [show Sys2Proof.core.step s = step s from rfl]
  cases step s <;> rfl

/-- `t` is `s` further on in its transaction: in step `st`, with `polls` STATUS reads counted, the accesses `l` made and
the turns `rest` left. The bridge and its last answer are the only other changes. -/
def Advanced (s : State) (st : SeqSt) (polls : Nat) (l : List Access) (rest : List Turn) (t : State) : Prop :=
  ∃ bridge answer,
    t = { s with seq := { s.seq with st := st, polls := polls }, bridge := bridge, busAnswer := answer,
                 bus := s.bus ++ l, turns := rest }

theorem Advanced.refl (s : State) : Advanced s s.seq.st s.seq.polls [] s.turns s :=
  ⟨s.bridge, s.busAnswer, by simp⟩

theorem Advanced.trans {st st' : SeqSt} {polls polls' : Nat} {l l' : List Access} {rest rest' : List Turn}
    (h : Advanced s st polls l rest t) (h' : Advanced t st' polls' l' rest' u) :
    Advanced s st' polls' (l ++ l') rest' u := by
  obtain ⟨_, _, rfl⟩ := h
  obtain ⟨bridge, answer, rfl⟩ := h'
  exact ⟨bridge, answer, by simp⟩

section
variable {st : SeqSt} {polls : Nat} {l : List Access} {rest : List Turn} (h : Advanced s st polls l rest t)
include h

theorem Advanced.seq_eq : t.seq = { s.seq with st := st, polls := polls } := by obtain ⟨_, _, rfl⟩ := h; rfl

theorem Advanced.cfg_eq : t.cfg = s.cfg := by obtain ⟨_, _, rfl⟩ := h; rfl

theorem Advanced.batch_eq : t.batch = s.batch := by obtain ⟨_, _, rfl⟩ := h; rfl

theorem Advanced.bus_eq : t.bus = s.bus ++ l := by obtain ⟨_, _, rfl⟩ := h; rfl

theorem Advanced.results_eq : t.results = s.results := by obtain ⟨_, _, rfl⟩ := h; rfl

theorem Advanced.turns_eq : t.turns = rest := by obtain ⟨_, _, rfl⟩ := h; rfl

end

section
variable {cmd : Command} {rest : List Turn}

/-- The first write of a transaction leads to WR_CTRL (rule R133). -/
theorem step_of_wrMosi {w : Word} (hst : s.seq.st = .wrMosi) (hcmd : s.seq.cmd = some cmd)
    (hturns : s.turns = .seq 0 w :: rest) :
    ∃ t, step s = .next t ∧
      Advanced s .wrCtrl s.seq.polls [⟨s.seq.owner, .write, .spiMosi, pack cmd⟩] rest t := by
  rw [step_seq hturns (by simp [hst]) hcmd]
  exact ⟨_, mosiStepWritesThePackedCommand cmd _ hst, _, _, rfl⟩

/-- The second write of a transaction leads to POLL (rule R134). -/
theorem step_of_wrCtrl {w : Word} (hst : s.seq.st = .wrCtrl) (hcmd : s.seq.cmd = some cmd)
    (hturns : s.turns = .seq 0 w :: rest) :
    ∃ t, step s = .next t ∧
      Advanced s .poll s.seq.polls [⟨s.seq.owner, .write, .spiControl, s.cfg.ctrlStartWord⟩] rest t := by
  rw [step_seq hturns (by simp [hst]) hcmd]
  exact ⟨_, controlStepStartsTheTransfer cmd _ hst, _, _, rfl⟩

/-- A not-done answer below the limit is a STATUS read that leaves the sequencer in POLL (rule R136). -/
theorem step_of_not_done {w : Word} (hst : s.seq.st = .poll) (hcmd : s.seq.cmd = some cmd)
    (hturns : s.turns = .seq 0 w :: rest) (hw : w &&& s.cfg.statusDoneMask = 0)
    (hlimit : s.cfg.pollLimit ≠ some (s.seq.polls + 1)) :
    ∃ t, step s = .next t ∧
      Advanced s .poll (s.seq.polls + 1) [⟨s.seq.owner, .read, .spiStatus, w⟩] rest t := by
  rw [step_seq hturns (by simp [hst]) hcmd, ← hst]
  exact ⟨_, pollAgainBelowTheLimit cmd _ hst hw hlimit, _, _, rfl⟩

/-- The done answer to a Write is the STATUS read that completes it (rule R135). -/
theorem step_of_write_done {w : Word} {a : ChipAddr} {v : Half} (hst : s.seq.st = .poll)
    (hcmd : s.seq.cmd = some (.write a v)) (hturns : s.turns = .seq 0 w :: rest)
    (hw : w &&& s.cfg.statusDoneMask ≠ 0) :
    ∃ t, step s = complete .noPayload t ∧
      Advanced s .poll (s.seq.polls + 1) [⟨s.seq.owner, .read, .spiStatus, w⟩] rest t := by
  rw [step_seq hturns (by simp [hst]) hcmd, ← hst]
  exact ⟨_, exec_spiWrite_of_done hst hw, _, _, rfl⟩

/-- The done answer to a Read is a STATUS read that leads to RD_MISO (rule R135). -/
theorem step_of_read_done {w : Word} {a : ChipAddr} (hst : s.seq.st = .poll) (hcmd : s.seq.cmd = some (.read a))
    (hturns : s.turns = .seq 0 w :: rest) (hw : w &&& s.cfg.statusDoneMask ≠ 0) :
    ∃ t, step s = .next t ∧
      Advanced s .rdMiso (s.seq.polls + 1) [⟨s.seq.owner, .read, .spiStatus, w⟩] rest t := by
  rw [step_seq hturns (by simp [hst]) hcmd]
  exact ⟨_, doneLeadsSpiReadToMiso a _ hst hw, _, _, rfl⟩

/-- The SPI_MISO read completes a Read with the low half of the word read (rules R90 and R137). -/
theorem step_of_rdMiso {w : Word} {a : ChipAddr} (hst : s.seq.st = .rdMiso) (hcmd : s.seq.cmd = some (.read a))
    (hturns : s.turns = .seq 0 w :: rest) :
    ∃ t, step s = complete (readResponse w) t ∧
      Advanced s .rdMiso s.seq.polls [⟨s.seq.owner, .read, .spiMiso, w⟩] rest t := by
  rw [step_seq hturns (by simp [hst]) hcmd, ← hst]
  exact ⟨_, exec_spiRead_of_rdMiso hst, _, _, rfl⟩

/-- The not-done answer that reaches the limit is the STATUS read that fails the transaction (rule R136). -/
theorem step_of_limit {w : Word} (hst : s.seq.st = .poll) (hcmd : s.seq.cmd = some cmd)
    (hturns : s.turns = .seq 0 w :: rest) (hw : w &&& s.cfg.statusDoneMask = 0)
    (hlimit : s.cfg.pollLimit = some (s.seq.polls + 1)) :
    ∃ t, step s = fail .transactionTimeout (setTimeoutSeen t) ∧
      Advanced s .poll (s.seq.polls + 1) [⟨s.seq.owner, .read, .spiStatus, w⟩] rest t := by
  rw [step_seq hturns (by simp [hst]) hcmd, ← hst]
  exact ⟨_, exec_ofCommand_of_limit cmd hst hw hlimit, _, _, rfl⟩

/-- Not-done answers below the limit are one STATUS read each (rule R136), by induction on the answers. -/
theorem run_polling {notDone : List Word} (hst : s.seq.st = .poll) (hcmd : s.seq.cmd = some cmd)
    (hnotDone : ∀ w ∈ notDone, w &&& s.cfg.statusDoneMask = 0)
    (hlimit : ∀ n, s.cfg.pollLimit = some n → s.seq.polls + notDone.length < n)
    (hturns : s.turns = seqTurns notDone ++ rest) :
    ∃ t, Host.Core.run Sys2Proof.core notDone.length s = .next t ∧
      Advanced s .poll (s.seq.polls + notDone.length)
        (notDone.map fun w => ⟨s.seq.owner, .read, .spiStatus, w⟩) rest t := by
  induction notDone generalizing s with
  | nil => exact ⟨s, rfl, by simpa [hst, hturns, seqTurns] using Advanced.refl s⟩
  | cons w ws ih =>
    simp only [List.length_cons] at hlimit ⊢
    have hbelow : s.cfg.pollLimit ≠ some (s.seq.polls + 1) := fun e => by
      have hlt := hlimit _ e
      omega
    obtain ⟨u, hstep, hu⟩ := step_of_not_done hst hcmd hturns (hnotDone w (by simp)) hbelow
    have hlimit' : ∀ n, u.cfg.pollLimit = some n → u.seq.polls + ws.length < n := fun n hn => by
      have hlt := hlimit n (hu.cfg_eq ▸ hn)
      simp only [hu.seq_eq]
      omega
    obtain ⟨t, hrun, ht⟩ := ih (by rw [hu.seq_eq]) (by rw [hu.seq_eq, ← hcmd])
      (fun x hx => hu.cfg_eq ▸ hnotDone x (by simp [hx])) hlimit' hu.turns_eq
    refine ⟨t, (run_succ hstep).trans hrun, ?_⟩
    simpa [hu.seq_eq, Nat.add_assoc, Nat.add_comm 1] using hu.trans ht

end

/-- The sequencer at the start of the transaction of `cmd`, granted to `c` in mode `m` (rules R132 and R181). -/
def seqAtStart (c : ClientId) (m : SeqMode) (cmd : Command) : Seq :=
  { st := .wrMosi, cmd := some cmd, polls := 0, owner := some c, mode := some m }

/-- The accesses of a transaction of `cmd` up to its not-done answers: the two writes, and one STATUS read each (rules
R133, R134 and R136). -/
def pollingAccesses (cfg : Config.Build) (c : ClientId) (cmd : Command) (notDone : List Word) : List Access :=
  [⟨some c, .write, .spiMosi, pack cmd⟩, ⟨some c, .write, .spiControl, cfg.ctrlStartWord⟩] ++
    notDone.map fun w => ⟨some c, .read, .spiStatus, w⟩

/-- From its start a transaction goes on through its two writes and the not-done answers below the limit. -/
theorem run_to_polling {c : ClientId} {m : SeqMode} {cmd : Command} {a b : Word} {notDone : List Word}
    {rest : List Turn} (hseq : s.seq = seqAtStart c m cmd)
    (hnotDone : ∀ w ∈ notDone, w &&& s.cfg.statusDoneMask = 0)
    (hlimit : ∀ n, s.cfg.pollLimit = some n → notDone.length < n)
    (hturns : s.turns = seqTurns ([a, b] ++ notDone) ++ rest) :
    ∃ t, Host.Core.run Sys2Proof.core (2 + notDone.length) s = .next t ∧
      Advanced s .poll notDone.length (pollingAccesses s.cfg c cmd notDone) rest t := by
  obtain ⟨t, hmosi, ht⟩ := step_of_wrMosi (cmd := cmd) (by rw [hseq]; rfl) (by rw [hseq]; rfl) hturns
  obtain ⟨u, hctrl, hu⟩ := step_of_wrCtrl (cmd := cmd) (by rw [ht.seq_eq]) (by rw [ht.seq_eq, hseq]; rfl) ht.turns_eq
  have htu := ht.trans hu
  obtain ⟨v, hpolling, hv⟩ := run_polling (cmd := cmd) (rest := rest) (notDone := notDone) (by rw [htu.seq_eq])
    (by rw [htu.seq_eq, hseq]; rfl) (by rwa [htu.cfg_eq])
    (by simpa [htu.cfg_eq, hu.seq_eq, ht.seq_eq, hseq, seqAtStart] using hlimit) htu.turns_eq
  have hwrites : Host.Core.run Sys2Proof.core 2 s = .next u := (run_succ hmosi).trans ((run_one t).trans hctrl)
  refine ⟨v, (run_add hwrites).trans hpolling, ?_⟩
  simpa [htu.seq_eq, ht.seq_eq, ht.cfg_eq, hseq, seqAtStart, pollingAccesses] using htu.trans hv

/-- Rule R82: the command of a Read's word. -/
theorem unpack_of_isRead {w : Word} (h : isRead w = true) : ∃ a, unpack w = .read a :=
  ⟨_, if_neg (by simpa [isRead] using h)⟩

/-- Rule R82: the command of a Write's word. -/
theorem unpack_of_not_isRead {w : Word} (h : isRead w = false) : ∃ a v, unpack w = .write a v :=
  ⟨_, _, if_pos (by simpa [isRead] using h)⟩

/-- A transaction that shows done within the limit makes its accesses and completes with its response (rules R131 and
R139). -/
theorem run_transfer {c : ClientId} {m : SeqMode} {x : Transfer} {rest : List Turn}
    (hseq : s.seq = seqAtStart c m (unpack x.word)) (hx : x.completes s.cfg)
    (hturns : s.turns = seqTurns x.draws ++ rest) :
    ∃ u st, Host.Core.run Sys2Proof.core x.draws.length s = complete x.response u ∧
      Advanced s st (x.notDone.length + 1) (x.accesses s.cfg c) rest u := by
  obtain ⟨hnotDone, hdone, hlimit⟩ := hx
  obtain ⟨t, hpolling, ht⟩ := run_to_polling (a := x.atMosi) (b := x.atCtrl)
    (rest := .seq 0 x.done :: (seqTurns (if isRead x.word then [x.miso] else []) ++ rest)) hseq hnotDone hlimit
    (by simp [hturns, seqTurns, Transfer.draws])
  have hst : t.seq.st = .poll := by rw [ht.seq_eq]
  have hcmd : t.seq.cmd = some (unpack x.word) := by rw [ht.seq_eq, hseq]; rfl
  have howner : t.seq.owner = some c := by rw [ht.seq_eq, hseq]; rfl
  have hpolls : t.seq.polls = x.notDone.length := by rw [ht.seq_eq]
  cases hread : isRead x.word with
  | false =>
    obtain ⟨a, v, hwrite⟩ := unpack_of_not_isRead hread
    obtain ⟨u, hdoneRead, hu⟩ := step_of_write_done hst (hwrite ▸ hcmd) ht.turns_eq (ht.cfg_eq ▸ hdone)
    have hlength : x.draws.length = 2 + x.notDone.length + 1 := by simp [Transfer.draws, hread]; omega
    have hresponse : x.response = .noPayload := by simp [Transfer.response, hread]
    refine ⟨u, .poll, ?_, ?_⟩
    · rw [hlength, hresponse]
      exact (run_add hpolling).trans ((run_one t).trans hdoneRead)
    · simpa [hpolls, howner, hread, seqTurns, pollingAccesses, Transfer.accesses] using ht.trans hu
  | true =>
    obtain ⟨a, hreadCmd⟩ := unpack_of_isRead hread
    obtain ⟨u, hdoneRead, hu⟩ := step_of_read_done hst (hreadCmd ▸ hcmd) ht.turns_eq (ht.cfg_eq ▸ hdone)
    obtain ⟨v, hmisoRead, hv⟩ := step_of_rdMiso (w := x.miso) (rest := rest) (by rw [hu.seq_eq])
      (by rw [hu.seq_eq, ← hreadCmd, ← hcmd]) (by rw [hu.turns_eq, hread]; rfl)
    have hlength : x.draws.length = 2 + x.notDone.length + 1 + 1 := by simp [Transfer.draws, hread]; omega
    have hresponse : x.response = readResponse x.miso := by simp [Transfer.response, hread, readResponse]
    refine ⟨v, .rdMiso, ?_, ?_⟩
    · rw [hlength, hresponse]
      exact (run_add hpolling).trans ((run_succ hdoneRead).trans ((run_one u).trans hmisoRead))
    · simpa [hu.seq_eq, hpolls, howner, hread, pollingAccesses, Transfer.accesses] using (ht.trans hu).trans hv

/-! ### The access counts of a transaction -/

theorem Transfer.length_accesses (x : Transfer) (cfg : Config.Build) (c : ClientId) :
    (x.accesses cfg c).length = (if isRead x.word then 3 else 2) + (x.notDone.length + 1) := by
  cases h : isRead x.word <;> simp [Transfer.accesses, h] <;> omega

theorem Transfer.statusReads_accesses (x : Transfer) (cfg : Config.Build) (c : ClientId) :
    statusReads (x.accesses cfg c) = x.notDone.length + 1 := by
  cases h : isRead x.word <;> simp [Transfer.accesses, h, statusReads]

/-- A transaction of a TRANSACT or of a batch with its command in progress completes without touching the bus order, as
its mode says (rules R138 and R142). -/
theorem exists_complete {c : ClientId} {m : SeqMode} (howner : s.seq.owner = some c) (hmode : s.seq.mode = some m)
    (hm : m = .single ∨ (m = .many ∧ s.batch.idx < s.batch.cmds.length)) (r : Response) :
    ∃ t, complete r s = .next t ∧ t.bus = s.bus ∧ t.turns = s.turns ∧
      (m = .single → t.batch = s.batch ∧ t.results = s.results ++ [⟨c, ⟨.ok, 0, .response r⟩⟩] ∧
        t.seq = { st := .idle, cmd := none, polls := s.seq.polls, owner := none, mode := none }) ∧
      (m = .many →
        t.batch = { s.batch with idx := s.batch.idx + 1, resps := s.batch.resps ++ [r] } ∧
        (s.batch.idx + 1 = s.batch.cmds.length →
          t.results = s.results ++ [⟨c, ⟨.ok, 0, .responses (s.batch.resps ++ [r])⟩⟩] ∧
          t.seq = { st := .idle, cmd := none, polls := s.seq.polls, owner := none, mode := none }) ∧
        ∀ next, s.batch.cmds[s.batch.idx + 1]? = some next →
          t.results = s.results ∧ t.seq = seqAtStart c .many next) := by
  rcases hm with rfl | ⟨rfl, hidx⟩
  · exact ⟨_, complete_single hmode howner r, rfl, rfl, fun _ => ⟨rfl, rfl, rfl⟩, by simp⟩
  · rcases Nat.eq_or_lt_of_le hidx with hlast | hmore
    · refine ⟨_, complete_many_last hmode howner hlast r, rfl, rfl, by simp,
        fun _ => ⟨rfl, fun _ => ⟨rfl, rfl⟩, fun next hnext => ?_⟩⟩
      exact absurd hlast (List.getElem?_eq_some_iff.mp hnext).1.ne
    · have hnext := List.getElem?_eq_getElem hmore
      refine ⟨_, complete_many_next hmode howner hnext r, rfl, rfl, by simp,
        fun _ => ⟨rfl, fun hlast => absurd hlast hmore.ne, fun next hnext' => ⟨rfl, ?_⟩⟩⟩
      rw [Option.some.inj (hnext.symm.trans hnext')]
      rfl

/-- As many not-done answers as the limit fail the transaction in the last of its STATUS reads (rules R136 and
R139). -/
theorem run_to_timeout {c : ClientId} {m : SeqMode} {cmd : Command} {a b : Word} {notDone : List Word}
    {rest : List Turn} (hseq : s.seq = seqAtStart c m cmd)
    (hnotDone : ∀ w ∈ notDone, w &&& s.cfg.statusDoneMask = 0) (hlimit : s.cfg.pollLimit = some notDone.length)
    (hturns : s.turns = seqTurns ([a, b] ++ notDone) ++ rest) :
    ∃ t, Host.Core.run Sys2Proof.core (2 + notDone.length) s = fail .transactionTimeout (setTimeoutSeen t) ∧
      Advanced s .poll notDone.length (pollingAccesses s.cfg c cmd notDone) rest t := by
  rcases List.eq_nil_or_concat' notDone with rfl | ⟨first, last, rfl⟩
  · exact absurd hlimit s.cfg.pollLimit_pos
  · rw [List.length_append, List.length_singleton] at hlimit ⊢
    have hbelow : ∀ n, s.cfg.pollLimit = some n → first.length < n := fun n hn => by
      obtain rfl := Option.some.inj (hlimit.symm.trans hn)
      exact Nat.lt_succ_self _
    obtain ⟨t, hpolling, ht⟩ := run_to_polling (a := a) (b := b) (rest := .seq 0 last :: rest) hseq
      (fun w hw => hnotDone w (by simp [hw])) hbelow (by simp [hturns, seqTurns])
    obtain ⟨u, hlast, hu⟩ := step_of_limit (cmd := cmd) (by rw [ht.seq_eq]) (by rw [ht.seq_eq, hseq]; rfl)
      ht.turns_eq (by rw [ht.cfg_eq]; exact hnotDone last (by simp)) (by rw [ht.cfg_eq, ht.seq_eq]; exact hlimit)
    refine ⟨u, (run_add hpolling).trans ((run_one t).trans hlast), ?_⟩
    simpa [ht.seq_eq, hseq, seqAtStart, pollingAccesses] using ht.trans hu

/-- Settles O28: the accesses of a transaction that shows done, counted, and of one that reaches the limit. -/
theorem transactionAccessCounts : Obligations.TransactionAccessCounts := by
  refine fun s c m x rest hseq hm => ⟨fun hx hturns => ?_, fun hnotDone hlimit hturns => ?_⟩
  · obtain ⟨u, st, hrun, hu⟩ := run_transfer hseq hx hturns
    obtain ⟨t, hcomplete, hbus, htturns, hends⟩ := exists_complete (s := u) (by rw [hu.seq_eq, hseq])
      (by rw [hu.seq_eq, hseq]) (by rwa [hu.batch_eq]) x.response
    rw [hu.bus_eq] at hbus
    rw [hu.batch_eq, hu.results_eq, hu.seq_eq] at hends
    refine ⟨t, hrun.trans hcomplete, hbus, ?_, ?_, htturns.trans hu.turns_eq, hends⟩
    · rw [hbus, List.length_append, x.length_accesses, Nat.add_assoc]
    · rw [hbus, List.drop_left]
      exact x.statusReads_accesses s.cfg c
  · obtain ⟨u, hrun, hu⟩ := run_to_timeout hseq hnotDone hlimit hturns
    have hfail := fail_of_held (s := setTimeoutSeen u) (c := c) (hm.imp_right And.left) (by simp [hu.seq_eq, hseq])
      (by simp [hu.seq_eq, hseq]) .transactionTimeout
    refine ⟨_, hrun.trans hfail, ?_, ?_, ?_, rfl, hu.batch_eq, ?_, hu.turns_eq⟩
    · simp [hu.bus_eq, pollingAccesses]
    · simp [hu.bus_eq, pollingAccesses]; omega
    · simp [hu.results_eq, hu.batch_eq]
    · simp [hu.seq_eq]

/-! ### From the acceptance to the result -/

/-- A request that a free client presents and that is granted leaves what else waits as it was (rule R182). -/
theorem erase_accepted (q : BusRequest) (h : outstanding s.portClient s = false) :
    Pending.erase s.portClient (acceptBus q s).arbPending = s.arbPending :=
  Pending.erase_insert_of_not_has q (outstanding_eq_false_iff.mp h).1

/-- Settles O29: acceptance, grant, the accesses of the transaction, and its end in mode SINGLE. -/
theorem transactRunsToItsResult : Obligations.TransactRunsToItsResult := by
  intro s x atGrant rest hfree hst howner hx hturns
  obtain ⟨v, hv, hgrant⟩ : ∃ v, v = { s with turns := seqTurns x.draws ++ rest, busAnswer := atGrant,
                                             seq := seqAtStart s.portClient .single (unpack x.word) } ∧
      step (acceptBus (.transact x.word) s) = .next v := by
    refine ⟨_, rfl, ?_⟩
    obtain ⟨hsingle, -⟩ := grantServesThePickedRequest (acceptBus (.transact x.word) s) s.portClient atGrant _ hturns
      hst howner
    rw [hsingle x.word (Pending.lookup_insert_self _ _ _), erase_accepted _ hfree]
    rfl
  obtain ⟨u, st, hrun, hu⟩ := run_transfer (s := v) (by rw [hv]) (by rwa [hv]) (by rw [hv])
  have hcomplete := complete_single (s := u) (c := s.portClient) (by rw [hu.seq_eq, hv]; rfl)
    (by rw [hu.seq_eq, hv]; rfl) x.response
  refine ⟨_, _, rfl, (run_add ((run_one _).trans hgrant)).trans (hrun.trans hcomplete), ?_⟩
  obtain ⟨_, _, rfl⟩ := hu
  subst hv
  and_intros <;> rfl

/-- A batch at the start of the transaction of `x`, with those of `xs` to follow, runs them in order and then delivers
what it had collected and their responses (rules R142 and R145), by induction on `xs`. -/
theorem run_batch {c : ClientId} {x : Transfer} {xs : List Transfer} {rest : List Turn}
    (hseq : s.seq = seqAtStart c .many (unpack x.word))
    (hcmds : s.batch.cmds.drop s.batch.idx = batchCommands ((x :: xs).map (·.word)))
    (hxs : ∀ y ∈ x :: xs, y.completes s.cfg)
    (hturns : s.turns = seqTurns ((x :: xs).flatMap Transfer.draws) ++ rest) :
    ∃ polls batch bridge answer,
      Host.Core.run Sys2Proof.core ((x :: xs).flatMap Transfer.draws).length s =
        .next { s with seq := { st := .idle, cmd := none, polls := polls, owner := none, mode := none },
                       batch := batch, bridge := bridge, busAnswer := answer,
                       bus := s.bus ++ (x :: xs).flatMap (Transfer.accesses s.cfg c),
                       results := s.results ++
                         [⟨c, ⟨.ok, 0, .responses (s.batch.resps ++ (x :: xs).map Transfer.response)⟩⟩],
                       turns := rest } := by
  induction xs generalizing s x with
  | nil =>
    obtain ⟨u, st, hrun, hu⟩ := run_transfer (rest := rest) hseq (hxs x (by simp)) (by simpa using hturns)
    have hone : s.batch.cmds.length - s.batch.idx = 1 := by
      simpa [batchCommands] using congrArg List.length hcmds
    have hlast : s.batch.idx + 1 = s.batch.cmds.length := by omega
    have hcomplete := complete_many_last (s := u) (c := c) (by rw [hu.seq_eq, hseq]; rfl)
      (by rw [hu.seq_eq, hseq]; rfl) (by rwa [hu.batch_eq]) x.response
    obtain ⟨bridge, answer, rfl⟩ := hu
    refine ⟨x.notDone.length + 1, { s.batch with idx := s.batch.idx + 1, resps := s.batch.resps ++ [x.response] },
      bridge, answer, ?_⟩
    simp only [List.flatMap_singleton, List.map_cons, List.map_nil]
    exact hrun.trans hcomplete
  | cons y ys ih =>
    obtain ⟨u, st, hrun, hu⟩ := run_transfer (rest := seqTurns ((y :: ys).flatMap Transfer.draws) ++ rest) hseq
      (hxs x (by simp)) (by simpa [seqTurns] using hturns)
    have hnext : s.batch.cmds[s.batch.idx + 1]? = some (unpack y.word) := by
      rw [← List.getElem?_drop, hcmds]
      rfl
    have hcomplete := complete_many_next (s := u) (c := c) (by rw [hu.seq_eq, hseq]; rfl)
      (by rw [hu.seq_eq, hseq]; rfl) (by rw [hu.batch_eq]; exact hnext) x.response
    obtain ⟨_, _, rfl⟩ := hu
    obtain ⟨polls, batch, bridge, answer, hrest⟩ := ih (x := y)
      (s := { s with seq := seqAtStart c .many (unpack y.word),
                     batch := { s.batch with idx := s.batch.idx + 1, resps := s.batch.resps ++ [x.response] },
                     bridge := _, busAnswer := _, bus := s.bus ++ x.accesses s.cfg c,
                     turns := seqTurns ((y :: ys).flatMap Transfer.draws) ++ rest })
      rfl (by rw [← List.tail_drop, hcmds]; rfl) (fun z hz => hxs z (by simp [hz])) rfl
    refine ⟨polls, batch, bridge, answer, ?_⟩
    rw [List.flatMap_cons, List.length_append]
    refine (run_add (hrun.trans hcomplete)).trans (hrest.trans ?_)
    simp

/-- Settles O31: acceptance and grant, and then the empty batch or the transactions of its words. -/
theorem batchRunsItsTransactionsInOrder : Obligations.BatchRunsItsTransactionsInOrder := by
  intro s xs atGrant rest hfree hst howner hlength hxs hturns
  have haccept : exec (.transactMany (xs.map (·.word))) s = .next (acceptBus (.transactMany (xs.map (·.word))) s) :=
    exec_transactMany_of_length_le (by simpa using hlength)
  cases xs with
  | nil =>
    have hgrant := emptyBatchEndsAtItsGrant (acceptBus (.transactMany []) s) s.portClient atGrant rest hturns hst
      howner (Pending.lookup_insert_self _ _ _)
    exact ⟨_, _, haccept, (run_one _).trans hgrant, by simp, rfl, rfl, hst, rfl, rfl, erase_accepted _ hfree, rfl⟩
  | cons x xs =>
    obtain ⟨v, hv, hgrant⟩ : ∃ v, v = { s with turns := seqTurns ((x :: xs).flatMap Transfer.draws) ++ rest,
                                               busAnswer := atGrant,
                                               batch := { cmds := batchCommands ((x :: xs).map (·.word)), idx := 0,
                                                          resps := [] },
                                               seq := seqAtStart s.portClient .many (unpack x.word) } ∧
        step (acceptBus (.transactMany ((x :: xs).map (·.word))) s) = .next v := by
      refine ⟨_, rfl, ?_⟩
      obtain ⟨-, hmany, -⟩ := grantServesThePickedRequest (acceptBus (.transactMany ((x :: xs).map (·.word))) s)
        s.portClient atGrant _ hturns hst howner
      rw [hmany x.word (xs.map (·.word)) (Pending.lookup_insert_self _ _ _), erase_accepted _ hfree]
      rfl
    obtain ⟨_, _, _, _, hrun⟩ := run_batch (s := v) (x := x) (xs := xs) (by rw [hv]) (by rw [hv]; rfl)
      (by rwa [hv]) (by rw [hv])
    subst hv
    exact ⟨_, _, haccept, (run_add ((run_one _).trans hgrant)).trans hrun, rfl, rfl, List.length_map _, rfl, rfl, rfl,
      rfl, rfl⟩

end Sys2Proof.Machine

/-! Proofs of the family of `42_tuning_retry.md`: CLKSEL (rule R161), the start of a TUNE_CGEN (rules R162 to R164), the
attempt laws (rules R165 to R167), and what the tuner leaves alone (rule R168). -/

namespace Sys2Proof.Machine

variable {s t : State} {freq : Freq} {cands : List Word}

/-! ### The start of a TUNE_CGEN -/

/-- Rule R163: with no candidates there is no attempt to make, so the request ends with TUNE_FAILURE. -/
theorem beginTune_nil (c : ClientId) (freq : Freq) (s : State) :
    beginTune c freq [] s =
      .next (raiseError c .tuneFailure 0
        { s with tune := { tuneStarted c freq [] s with st := .exhausted, owner := none } }) := rfl

/-- Rules R163 and R164: with a candidate the budget is not empty, and attempt 0 is made. -/
theorem beginTune_cons (c : ClientId) (freq : Freq) (div : Word) (divs : List Word) (s : State) :
    beginTune c freq (div :: divs) s =
      .next { s with calls := s.calls ++ [⟨freq, clkCode div⟩],
                     tune := { tuneStarted c freq (div :: divs) s with st := .searching, waiting := true,
                                                                       attemptsMade := 1 } } := by
  have hbudget : tuneBudget (div :: divs) ≠ 0 := by simp [tuneBudget, Config.maxAttempts]
  exact if_neg hbudget

/-- Rule R162: a TUNE_CGEN presented to a free tuner starts for the client that presents it. -/
theorem exec_tuneCgen_of_free (hfreq : freq.positive = true) (hlen : cands.length ≤ s.cfg.candMax)
    (hst : s.tune.st ≠ .searching) : exec (.tuneCgen freq cands) s = beginTune s.portClient freq cands s := by
  simp [exec, execTuneCgen, hfreq, (fits_iff _ _).mpr hlen, hst]

/-- Rule R162: a free tuner starts the waiting request of its pick, which no longer waits. -/
theorem startPendingTune_of_free {pick : ClientId} {q : TuneRequest} (hst : s.tune.st ≠ .searching)
    (hq : Pending.lookup pick s.tunePending = some q) :
    startPendingTune pick s =
      beginTune pick q.freq q.cands { s with tunePending := Pending.erase pick s.tunePending } := by
  simp [startPendingTune, hst, hq]

/-- Settles O34: it starts in the step it is presented, with no candidates. -/
theorem tuneWithoutCandidatesFailsAtOnce : Obligations.TuneWithoutCandidatesFailsAtOnce :=
  fun freq s hfreq hst => (exec_tuneCgen_of_free hfreq (Nat.zero_le _) hst).trans (beginTune_nil _ freq s)

/-- Settles O35: it starts in the step it is presented, with a first candidate. -/
theorem tuneStartMakesAttemptZero : Obligations.TuneStartMakesAttemptZero :=
  fun freq div divs s hfreq hlen hst => (exec_tuneCgen_of_free hfreq hlen hst).trans (beginTune_cons _ freq div divs s)

/-- Settles O37: the tuner's turn starts the request of its pick, with no candidates or with a first one. -/
theorem waitingTuneStarts : Obligations.WaitingTuneStarts := by
  intro s c freq cands rest hturns hst hq
  have hstep : step s = beginTune c freq cands
      { s with turns := rest, tunePending := Pending.erase c s.tunePending } :=
    (step_turn hturns).trans (startPendingTune_of_free (s := { s with turns := rest }) hst hq)
  refine ⟨fun hnil => ?_, fun div divs hcons => ?_⟩
  · subst hnil
    exact hstep.trans (beginTune_nil c freq _)
  · subst hcons
    exact hstep.trans (beginTune_cons c freq div divs _)

/-! ### CLKSEL -/

/-- Rule R161: the clock-select code by the divider's number. -/
theorem clkCode_eq_ofNat (div : Word) :
    clkCode div = BitVec.ofNat 2 (if div.toNat = 1 then 0 else if div.toNat = 2 then 1
      else if div.toNat = 4 then 2 else 3) := by
  have heq (w : Word) : div = w ↔ div.toNat = w.toNat := BitVec.toNat_inj.symm
  simp only [clkCode, heq, apply_ite (BitVec.ofNat 2)]
  rfl

/-- Settles O11: one code answers CLKSEL and stands in the first call of a TUNE_CGEN, whose list of one divider is
within every bound (rule R10). -/
theorem clkselResult : Obligations.ClkselResult := by
  intro div s
  rw [← clkCode_eq_ofNat]
  refine ⟨decodeOfEncodeIsTheInstruction default (.clksel div) rfl, rfl, fun freq hfreq hst => ?_⟩
  have hlen : [div].length ≤ s.cfg.candMax := (by decide : 1 ≤ Config.maxAttempts).trans s.cfg.candMax_ge
  exact ⟨_, tuneStartMakesAttemptZero freq div [] s hfreq hlen hst, rfl⟩

/-! ### What the tuner leaves alone -/

/-- Rule R168: no effect of the tuner or of the RF control library touches the waiting bus requests. -/
theorem Effect.arbPending_of_tuner {turn : Turn} (h : Effect s turn t)
    (hturn : (∃ c, turn = .tuner c) ∨ ∃ a, turn = .rflib a) : t.arbPending = s.arbPending := by
  rcases hturn with ⟨_, rfl⟩ | ⟨_, rfl⟩
  · cases h with
    | hold | waitFail | waitGo => rfl
  · cases h with
    | hold | attemptOk | attemptLast | attemptNext => rfl

/-- Settles O41: the frame of any agent but `Seq` and reset, and the arbiter's set. -/
theorem tunerHoldsNoGrant : Obligations.TunerHoldsNoGrant := by
  intro s t turn rest hturns hturn hstep
  have heffect := effect_of_step hturns hstep
  obtain ⟨hreset, hseq, hbridge⟩ : turn.isReset = false ∧ turn.isSeq = false ∧ turn ≠ .bridge := by
    rcases hturn with ⟨c, rfl⟩ | ⟨a, rfl⟩ <;> exact ⟨rfl, rfl, nofun⟩
  have hframe := heffect.otherAgentFrame hreset hseq
  exact ⟨hframe.seq, hframe.batch, hframe.bus, hframe.bridge hbridge, heffect.arbPending_of_tuner hturn,
    hframe.timeoutSeen⟩

/-! ### The attempt laws -/

/-- The state in which the presenting client's TUNE_CGEN, started in `s`, has had `i` failures and waits for the answer
to attempt `i`: it has made a call for each candidate up to its `i`th. The waiting requests and the grant are those of
`s`, so that the RF control library is as free to answer as it was there. -/
def attempting (freq : Freq) (cands : List Word) (i : Nat) (s : State) : State :=
  { s with calls := s.calls ++ (cands.take (i + 1)).map fun d => ⟨freq, clkCode d⟩,
           tune := { tuneStarted s.portClient freq cands s with st := .searching, waiting := true, idx := i,
                                                                attemptsMade := i + 1 } }

/-- A TUNE_CGEN that starts with a candidate waits for the answer to attempt 0 (rules R162 to R164). -/
theorem exec_tuneCgen_attempting (hfreq : freq.positive = true) (hlen : cands.length ≤ s.cfg.candMax)
    (hst : s.tune.st ≠ .searching) (hpos : 1 ≤ cands.length) :
    exec (.tuneCgen freq cands) s = .next (attempting freq cands 0 s) := by
  rw [exec_tuneCgen_of_free hfreq hlen hst]
  cases cands with
  | nil => simp at hpos
  | cons div divs => exact beginTune_cons _ freq div divs s

/-- Rule R166: a failure within the budget is followed by the next attempt. -/
theorem step_attempting_err {i : Nat} {rest : List Turn} (hbusy : rflibBusy s = false)
    (hi : i + 1 < tuneBudget cands) (hturns : s.turns = .rflib .err :: rest) :
    step (attempting freq cands i s) = .next (attempting freq cands (i + 1) { s with turns := rest }) := by
  have hcand : i + 1 < cands.length := hi.trans_le (tuneBudget_le cands).2
  obtain ⟨-, hnext⟩ := attemptFailureTriesTheNextCandidate (attempting freq cands i s) s.portClient rest hturns rfl
    hbusy rfl
  rw [hnext cands[i + 1] freq (Nat.ne_of_lt hi) (List.getElem?_eq_getElem hcand) rfl]
  simp only [attempting, ← List.take_concat_get' cands (i + 1) hcand, List.map_append, List.append_assoc]
  rfl

/-- Failures within the budget are one attempt each (rule R166), by induction on their number. -/
theorem run_failures {i j : Nat} {rest : List Turn} (hbusy : rflibBusy s = false) (hij : i + j < tuneBudget cands)
    (hturns : s.turns = List.replicate j (.rflib .err) ++ rest) :
    Host.Core.run Sys2Proof.core j (attempting freq cands i s) =
      .next (attempting freq cands (i + j) { s with turns := rest }) := by
  induction j generalizing s i with
  | zero => rw [← show s.turns = rest from hturns]; rfl
  | succ j ih =>
    have hstep := step_attempting_err (freq := freq) hbusy (show i + 1 < tuneBudget cands by omega) hturns
    have hrest := ih (s := { s with turns := List.replicate j (.rflib .err) ++ rest }) (i := i + 1) hbusy (by omega) rfl
    rw [Nat.add_right_comm] at hrest
    exact (run_succ hstep).trans hrest

/-- The failures of a TUNE_CGEN that starts in `s`, and then one more answer, whose turn is the next one. -/
theorem run_failures_then {j : Nat} {turns : List Turn} (hbusy : rflibBusy s = false) (hj : j < tuneBudget cands)
    (hturns : s.turns = List.replicate j (.rflib .err) ++ turns) :
    Host.Core.run Sys2Proof.core (j + 1) (attempting freq cands 0 s) =
      step (attempting freq cands j { s with turns := turns }) := by
  have hrun := run_failures (freq := freq) hbusy (show 0 + j < tuneBudget cands by omega) hturns
  rw [run_add hrun, run_one, Nat.zero_add]

/-- Settles O40: the failures of the attempts before the last, and then the success or the failure that ends the
TUNE_CGEN. -/
theorem attemptLaws : Obligations.AttemptLaws := by
  intro s freq cands rest hst hfreq hlen hbusy
  refine ⟨fun j hj hturns => ?_, fun hpos hturns => ?_⟩
  · have hsuccess := attemptSuccessEndsTheTune (attempting freq cands j { s with turns := .rflib .ok :: rest })
      s.portClient rest rfl rfl hbusy rfl
    exact ⟨_, _, exec_tuneCgen_attempting hfreq hlen hst (by omega),
      (run_failures_then hbusy hj hturns).trans hsuccess, rfl, rfl, rfl, rfl, rfl, rfl, rfl, rfl⟩
  · obtain ⟨n, hn⟩ : ∃ n, min 40 cands.length = n + 1 := Nat.exists_eq_add_one.mpr (by omega)
    rw [hn] at hturns ⊢
    rw [List.replicate_succ', List.append_assoc] at hturns
    obtain ⟨hfailure, -⟩ := attemptFailureTriesTheNextCandidate
      (attempting freq cands n { s with turns := .rflib .err :: rest }) s.portClient rest rfl rfl hbusy rfl
    have hbudget : tuneBudget cands = n + 1 := hn
    exact ⟨_, _, exec_tuneCgen_attempting hfreq hlen hst hpos,
      (run_failures_then hbusy (by omega) hturns).trans (hfailure hbudget.symm), rfl,
      hbudget ▸ rfl, rfl, rfl, rfl, rfl, rfl, rfl⟩

end Sys2Proof.Machine

/-! Proofs of the family of `43_register_arbiter.md`: REG_READ32 from its presentation to its result (rules R181, R182,
R186 and R187), the release of the grant (rule R185), and the self-wait of the RF control library (rule R244). -/

namespace Sys2Proof.Machine

variable {s t : State}

/-! ### REG_READ32 -/

/-- Rule R187: the register number stands in bits 6 to 4 of the info word, so that it counts sixteens. -/
theorem illegalRegInfo_eq_ofNat (reg : BitVec 3) :
    illegalRegInfo reg = BitVec.ofNat 32 (0x106 + 16 * reg.toNat) := by
  revert reg; decide

/-- Settles O15: the error's info word by its number. -/
theorem regReadOfOtherRegisterIsIllegal : Obligations.RegReadOfOtherRegisterIsIllegal := by
  intro reg s hreg
  rw [exec_regRead32_of_ne s hreg, illegalRegInfo_eq_ofNat]
  rfl

/-- Rules R182 and R187: a REG_READ32 of CTRL_SCRATCH is accepted. -/
theorem exec_regRead32_ctrlScratch (s : State) :
    exec (.regRead32 4) s = .next (acceptBus (.regRead32 4) s) := by
  rw [exec, execRegRead32, if_pos ((regReadable_iff 4).mpr rfl)]

/-- Settles O30: the request is accepted, its grant step makes the read and delivers, and what else waits is as it was
before the acceptance. -/
theorem regReadRunsToItsResult : Obligations.RegReadRunsToItsResult := by
  intro s draw rest hfree hst howner hturns
  obtain ⟨-, -, hreg, -⟩ :=
    grantServesThePickedRequest (acceptBus (.regRead32 4) s) s.portClient draw rest hturns hst howner
  refine ⟨_, exec_regRead32_ctrlScratch s, ?_⟩
  rw [hreg 4 (Pending.lookup_insert_self _ _ _), erase_accepted _ hfree]
  rfl

/-! ### The release of the grant -/

/-- Rule R43: the client whose TUNE_CGEN is in progress holds no grant. -/
theorem ClientInv.seq_owner_ne_of_tune_owner (h : ClientInv s) {c : ClientId} (ht : s.tune.owner = some c) :
    s.seq.owner ≠ some c := by
  intro howner
  have hone := h.one_outstanding c
  rw [heldCount, if_pos (c := s.seq.owner = _) howner, if_pos (c := s.tune.owner = _) ht] at hone
  omega

/-- The step leaves the grant of `c` held and delivers nothing to `c`. -/
def KeepsGrant (c : ClientId) (s t : State) : Prop :=
  t.seq.owner = some c ∧ ∀ r, t.results ≠ s.results ++ [⟨c, r⟩]

/-- The step delivers a result to `c` and releases the grant (rule R185). -/
def EndsGrant (c : ClientId) (s t : State) : Prop :=
  t.seq.owner = none ∧ t.seq.mode = none ∧ ∃ r, t.results = s.results ++ [⟨c, r⟩]

theorem KeepsGrant.of_no_result {c : ClientId} (howner : t.seq.owner = some c) (hresults : t.results = s.results) :
    KeepsGrant c s t :=
  ⟨howner, by simp [hresults]⟩

/-- A result for a client that does not hold the grant is no result for the one that does. -/
theorem KeepsGrant.of_result_for_other {c d : ClientId} {r : Result} (howner : s.seq.owner = some c)
    (hd : s.seq.owner ≠ some d) (hseq : t.seq = s.seq) (hresults : t.results = s.results ++ [⟨d, r⟩]) :
    KeepsGrant c s t := by
  have hne : d ≠ c := fun e => hd (e ▸ howner)
  exact ⟨hseq ▸ howner, by simp [hresults, hne]⟩

/-- The holder's result and the release come in one step (rule R185). -/
theorem EndsGrant.of_result {c d : ClientId} {r : Result} (howner : s.seq.owner = some c) (hd : s.seq.owner = some d)
    (hfree : t.seq.owner = none) (hmode : t.seq.mode = none) (hresults : t.results = s.results ++ [⟨d, r⟩]) :
    EndsGrant c s t := by
  obtain rfl : d = c := Option.some.inj (hd.symm.trans howner)
  exact ⟨hfree, hmode, r, hresults⟩

/-- Rule R185: an effect but that of reset keeps a held grant, or ends it with the holder's result; a result that
leaves the grant held is for another client, since the holder has no other request outstanding (rule R43). -/
theorem Effect.keepsGrant_or_endsGrant {turn : Turn} {c : ClientId} (h : Effect s turn t) (hs : ClientInv s)
    (howner : s.seq.owner = some c) (hreset : turn.isReset = false) : KeepsGrant c s t ∨ EndsGrant c s t := by
  cases h with
  | hold | accept | tuneWait | tuneGo | waitGo | attemptNext | bridge | wrMosi | wrCtrl | pollAgain | readDone =>
    exact .inl (.of_no_result howner rfl)
  | answer _ _ _ _ ho | tuneFail _ _ _ _ ho =>
    obtain ⟨-, -, hgranted, -⟩ := outstanding_eq_false_iff.mp ho
    exact .inl (.of_result_for_other howner hgranted rfl rfl)
  | waitFail d _ _ hq =>
    obtain ⟨-, hgranted, -⟩ := only_in_tunePending (hs.one_outstanding d) (has_of_lookup hq)
    exact .inl (.of_result_for_other howner hgranted rfl rfl)
  | attemptOk _ _ _ ho | attemptLast _ _ _ ho =>
    exact .inl (.of_result_for_other howner (hs.seq_owner_ne_of_tune_owner ho) rfl rfl)
  | grantSingle _ _ _ ho | grantMany _ _ _ _ ho | grantEmpty _ _ ho | grantReg _ _ _ ho => simp [ho] at howner
  | timeoutSingle _ _ _ _ _ _ _ ho | timeoutMany _ _ _ _ _ _ _ ho => exact .inr (.of_result howner ho rfl rfl rfl)
  | doneSingle _ _ _ _ _ hc _ ho | doneLast _ _ _ _ _ hc _ ho =>
    obtain ⟨_, _, _, _, rfl⟩ := hc.frame
    exact .inr (.of_result howner ho rfl rfl rfl)
  | doneNext _ _ _ _ _ _ hc =>
    obtain ⟨_, _, _, _, rfl⟩ := hc.frame
    exact .inl (.of_no_result howner rfl)
  | reset => simp [Turn.isReset] at hreset

/-- Every step but reset keeps a held grant, or ends it with the holder's result (rule R185). -/
theorem keepsGrant_or_endsGrant_of_step {c : ClientId} (hs : Inv s) (howner : s.seq.owner = some c)
    (hreset : resetNext s = false) (h : step s = .next t) : KeepsGrant c s t ∨ EndsGrant c s t := by
  rcases step_cases h with ⟨_, rfl⟩ | ⟨turn, rest, hturns, heffect⟩
  · exact .inl (.of_no_result howner rfl)
  · rw [resetNext_of_turns hturns] at hreset
    exact heffect.keepsGrant_or_endsGrant (hs.of_turns_taken rest).clientInv howner hreset

/-- Settles O54: a step that keeps the grant delivers nothing to the holder, and one that ends it does. -/
theorem releaseComesWithTheResult : Obligations.ReleaseComesWithTheResult := by
  intro s t c hs howner hreset h
  rcases keepsGrant_or_endsGrant_of_step hs howner hreset h with ⟨hheld, hnone⟩ | ⟨hfree, hmode, hresult⟩
  · exact ⟨⟨fun hne => absurd hheld hne, fun ⟨r, hr⟩ => absurd hr (hnone r)⟩, fun hne => absurd hheld hne⟩
  · exact ⟨⟨fun _ => hresult, fun _ => by simp [hfree]⟩, fun _ => ⟨hfree, hmode⟩⟩

/-! ### The self-wait of the RF control library -/

/-- Who waits in a set waits in it with one more entry too. -/
theorem Pending.has_insert_of_has {α : Type} {c d : ClientId} {a : α} {l : List (ClientId × α)}
    (h : has d l = true) : has d (insert c a l) = true := by
  by_cases e : d = c
  · exact e ▸ has_insert_self c a l
  · rwa [has_insert_ne a l e]

/-- Rule R244: with the tuner waiting for the library and the library for its own TUNE_CGEN, no effect but that of
reset changes the tuner or ends the library's wait. A tuner that waits starts no request, and the library in its
self-wait does not answer. -/
theorem Effect.selfWait_kept {turn : Turn} (h : Effect s turn t) (hs : TuneInv s) (hw : s.tune.waiting = true)
    (hself : rflibSelfWait s = true) (hreset : turn.isReset = false) :
    t.tune = s.tune ∧ rflibSelfWait t = true := by
  have hsearching : s.tune.st = .searching := hs.waiting_iff.mp hw
  have hbusy : rflibBusy s = true := rflibBusy_of_selfWait hself
  cases h with
  | hold | answer | accept | bridge | grantSingle | grantMany | grantEmpty | grantReg | wrMosi | wrCtrl | pollAgain
  | readDone | timeoutSingle | timeoutMany => exact ⟨rfl, hself⟩
  | doneSingle _ _ _ _ _ hc | doneLast _ _ _ _ _ hc | doneNext _ _ _ _ _ _ hc =>
    obtain ⟨_, _, _, _, rfl⟩ := hc.frame
    exact ⟨rfl, hself⟩
  | tuneWait => exact ⟨rfl, Pending.has_insert_of_has hself⟩
  | tuneFail _ _ _ _ _ _ hfree | tuneGo _ _ _ _ _ _ _ hfree | waitFail _ _ hfree | waitGo _ _ _ hfree =>
    exact absurd hsearching hfree
  | attemptOk _ _ hr | attemptLast _ _ hr | attemptNext _ _ _ hr => simp [hbusy] at hr
  | reset => simp [Turn.isReset] at hreset

/-- Settles O42: the tuner and the library's wait over the effects of the turn that is taken. -/
theorem reentrantTuneIsStuckUntilReset : Obligations.ReentrantTuneIsStuckUntilReset := by
  intro s t hs hw hself hreset h
  rcases step_cases h with ⟨_, rfl⟩ | ⟨turn, rest, hturns, heffect⟩
  · exact ⟨rfl, hself⟩
  · rw [resetNext_of_turns hturns] at hreset
    exact heffect.selfWait_kept (hs.of_turns_taken rest).tuneInv hw hself hreset

end Sys2Proof.Machine
